-- ==== Sys2Proof/Word.lean ====
section
/-! DEFINITION. The word, byte and register-number types (spec 00_scope R5, R7; 10_state R10). -/

namespace Sys2Proof

/-- A 32-bit word: a register, the program counter, an address, an instruction (R5, `XLEN = 32`). `+` and `-` on it are
the `+32` and `-32` of R7 (modulo `2^32`); bounds checks go through `toNat` and are exact. -/
abbrev Word := BitVec 32

/-- The unit an address names (R24). -/
abbrev Byte := BitVec 8

/-- A register number `0 ≤ i ≤ 31` (R10: every 5-bit field value names an existing register). -/
abbrev RegIdx := Fin 32

end Sys2Proof
end

