-- ==== Sys2Proof/Syntax.lean ====
section
/-! DEFINITION. The instructions (one constructor per row of spec/opcode_table.json), the three layouts of an instruction
word, the opcode map and the spec's listing syntax (spec 30_encoding R60 to R72). -/

namespace Sys2Proof

/-- The `sign` bit of a J-type word: 0 adds the magnitude, 1 subtracts it (R65). -/
inductive Direction where
  | forward
  | backward
deriving DecidableEq, Repr

/-- An instruction. Every immediate is the raw, unscaled, unsigned field (R64, R65). -/
inductive Instr where
  /-- JAL, jump-and-link (R90). -/
  | jal (rd : RegIdx) (imm19 : BitVec 19) (dir : Direction)
  /-- ADDI, add-immediate (R95). `rd` is the field the operation ignores (R66), kept so that no bit of a word is lost
  (log 4). -/
  | addi (rs1 : RegIdx) (imm12 : BitVec 12) (rd : RegIdx)
  /-- UNRECOGNISED, every other word (R100). -/
  | unrecognised (w : Word)
deriving DecidableEq, Repr

/-- R-type view (R61): defined by the spec and used by no instruction (R63). -/
structure RType where
  op     : BitVec 7
  rd     : BitVec 5
  funct3 : BitVec 3
  rs1    : BitVec 5
  rs2    : BitVec 5
  funct7 : BitVec 7
deriving DecidableEq, Repr

/-- I-type view (R61). -/
structure IType where
  op     : BitVec 7
  rd     : BitVec 5
  funct3 : BitVec 3
  rs1    : BitVec 5
  imm    : BitVec 12
deriving DecidableEq, Repr

/-- J-type view (R61). -/
structure JType where
  op   : BitVec 7
  rd   : BitVec 5
  imm  : BitVec 19
  sign : BitVec 1
deriving DecidableEq, Repr

/-- What the format discriminator selects (R63): no `low3` value selects the R-type view. -/
inductive Format where
  | jType
  | iType
  | noView
deriving DecidableEq, Repr

/-- A row of the opcode map (R67): the words `w` with `w &&& mask = pattern`. -/
structure OpcodeRow where
  mask    : Word
  pattern : Word
deriving DecidableEq, Repr

/-- The `JAL` row of R67. -/
def jalRow : OpcodeRow := { mask := 0x0000007F, pattern := 0x0000006F }

/-- The `ADDI` row of R67. -/
def addiRow : OpcodeRow := { mask := 0x0000707F, pattern := 0x00000013 }

/-- The word belongs to the row. -/
def OpcodeRow.holds (r : OpcodeRow) (w : Word) : Bool := w &&& r.mask == r.pattern

/-- A line of the spec's own listing syntax (R72, D19). -/
inductive AsmLine where
  /-- `JAL xD, +N` -/
  | jalPlus (rd : RegIdx) (n : BitVec 19)
  /-- `JAL xD, -N` -/
  | jalMinus (rd : RegIdx) (n : BitVec 19)
  /-- `ADDI xS, N` -/
  | addi (rs : RegIdx) (n : BitVec 12)
  /-- `ADDI xS, N, rd=xD` -/
  | addiRd (rs : RegIdx) (n : BitVec 12) (rd : RegIdx)
  /-- `NOP` -/
  | nop
deriving DecidableEq, Repr

end Sys2Proof
end

