-- ==== Sys2Proof/WellFormed.lean ====
section
/-! DEFINITION. When an instruction term is one that a word can stand for (spec 30_encoding R67). -/

namespace Sys2Proof

/-- Field ranges are in the types; what is left to check is that an unrecognised word is in neither row of the opcode
map (R67, R100). -/
def Instr.wellFormed : Instr → Bool
  | .jal _ _ _ => true
  | .addi _ _ _ => true
  | .unrecognised w => !jalRow.holds w && !addiRow.holds w

end Sys2Proof
end

