-- ==== Sys2Proof/Decode.lean ====
section
/-! DEFINITION. Layout views, format discriminator, the total decoder, the byte-level decoder that rejects by name, the
encoder and the listing assembler (spec 30_encoding R60 to R72). -/

namespace Sys2Proof

/-! ### The layouts, at the bit positions of R62 -/

/-- The R-type view of a word (R62). -/
def rTypeOfWord (w : Word) : RType :=
  { op := w.extractLsb' 0 7, rd := w.extractLsb' 7 5, funct3 := w.extractLsb' 12 3, rs1 := w.extractLsb' 15 5,
    rs2 := w.extractLsb' 20 5, funct7 := w.extractLsb' 25 7 }

/-- The I-type view of a word (R62). -/
def iTypeOfWord (w : Word) : IType :=
  { op := w.extractLsb' 0 7, rd := w.extractLsb' 7 5, funct3 := w.extractLsb' 12 3, rs1 := w.extractLsb' 15 5,
    imm := w.extractLsb' 20 12 }

/-- The J-type view of a word (R62). -/
def jTypeOfWord (w : Word) : JType :=
  { op := w.extractLsb' 0 7, rd := w.extractLsb' 7 5, imm := w.extractLsb' 12 19, sign := w.extractLsb' 31 1 }

/-- The word an R-type view is a view of: the first field in the least significant bits (R62, D2). -/
def wordOfRType (v : RType) : Word := v.funct7 ++ v.rs2 ++ v.rs1 ++ v.funct3 ++ v.rd ++ v.op

/-- The word an I-type view is a view of (R62, D2). -/
def wordOfIType (v : IType) : Word := v.imm ++ v.rs1 ++ v.funct3 ++ v.rd ++ v.op

/-- The word a J-type view is a view of (R62, D2). -/
def wordOfJType (v : JType) : Word := v.sign ++ v.imm ++ v.rd ++ v.op

/-! ### Fields to operands -/

/-- A register field names the register of that number (R10, R66). -/
def regOfField (f : BitVec 5) : RegIdx := f.toFin

/-- The field that names a register. -/
def fieldOfReg (r : RegIdx) : BitVec 5 := BitVec.ofFin r

/-- The `sign` field: 0 forward, 1 backward (R65). -/
def dirOfField (f : BitVec 1) : Direction := if f = 1 then .backward else .forward

/-- The `sign` field of a direction (R65). -/
def fieldOfDir : Direction → BitVec 1
  | .forward => 0
  | .backward => 1

/-! ### Decode -/

/-- The format discriminator `low3 = w[2:0]` (R63). -/
def formatOfWord (w : Word) : Format :=
  if w.extractLsb' 0 3 = 0b111 then .jType else if w.extractLsb' 0 3 = 0b011 then .iType else .noView

/-- Decode (R68), a total function of the word: format first, then the full opcode and `funct3`. `NONE` is
`unrecognised w`. -/
def decode (w : Word) : Instr :=
  match formatOfWord w with
  | .jType =>
    let v := jTypeOfWord w
    if v.op = 0b1101111 then .jal (regOfField v.rd) v.imm (dirOfField v.sign) else .unrecognised w
  | .iType =>
    let v := iTypeOfWord w
    if v.funct3 = 0b000 ∧ v.op = 0b0010011 then .addi (regOfField v.rs1) v.imm (regOfField v.rd) else .unrecognised w
  | .noView => .unrecognised w

/-- Why bytes are no instruction. -/
inductive DecodeError where
  /-- Fewer than the four bytes that every instruction takes (R60); `got` counts them. Safe: the core never decodes
  fewer (R42). -/
  | tooFewBytes (got : Nat)
deriving DecidableEq, Repr

/-- Decode the instruction at the front of a byte list, lowest address first, and give the bytes after it. One length,
little-endian (R50, R60, R69). -/
def decodeBytes : List Byte → Except DecodeError (Instr × List Byte)
  | b0 :: b1 :: b2 :: b3 :: rest => .ok (decode (wordOfBytes b0 b1 b2 b3), rest)
  | bs => .error (.tooFewBytes bs.length)

/-! ### Encode -/

/-- Encode, the inverse of decode (R71). -/
def encode : Instr → Word
  | .jal rd imm19 dir => wordOfJType { op := 0b1101111, rd := fieldOfReg rd, imm := imm19, sign := fieldOfDir dir }
  | .addi rs1 imm12 rd =>
    wordOfIType { op := 0b0010011, rd := fieldOfReg rd, funct3 := 0b000, rs1 := fieldOfReg rs1, imm := imm12 }
  | .unrecognised w => w

/-- The word of a line of the spec's listing syntax (R72). -/
def assemble : AsmLine → Word
  | .jalPlus rd n => encode (.jal rd n .forward)
  | .jalMinus rd n => encode (.jal rd n .backward)
  | .addi rs n => encode (.addi rs n rs)
  | .addiRd rs n rd => encode (.addi rs n rd)
  | .nop => 0x00000000

/-- What the decoder reads from an instruction whose low `nbits` bits are `w` and whose other bits are 0: the word is
laid out as the hardware stores it and given to `decodeBytes`. -/
def decodeTableWord (nbits w : Nat) : Option Instr :=
  match decodeBytes (bytesOfWord (BitVec.ofNat 32 (w % 2 ^ nbits))) with
  | .ok (i, _) => some i
  | .error _ => none

end Sys2Proof
end

