-- ==== Sys2Proof/Config.lean ====
section
/-! DEFINITION. The implementation parameters that the host supplies (spec 00_scope R6), the constraint each must meet,
the configuration behind `State.reset`, and the one free value of the model (10_state R28). -/

namespace Sys2Proof

/-- `CACHE_SIZE` in bytes (R5). -/
def cacheSize : Nat := 1024

/-- The number of word reads `load` makes (R5: 256 instruction words; R40). -/
def cacheWords : Nat := 256

/-- The construction inputs of R6. `memInit` lists the device's contents at the moment the Hart is constructed; an
address inside the device that it does not list holds the byte of `Machine.unlistedByte` (log 2). -/
structure Config where
  memBase   : Word
  memLength : Word
  memInit   : List Host.Cell
  pcReset   : Word
  spReset   : Word
  spIndex   : Nat
deriving DecidableEq, Repr

/-- The constraints of R6 a configuration can violate; one that does is refused. -/
inductive ConfigViolation where
  /-- `MEM_BASE + MEM_LENGTH > 2^32`. -/
  | deviceEndsPastAddressSpace
  /-- `PC_RESET + 1024 ≥ 2^32`. -/
  | windowEndsPastAddressSpace
  /-- `SP_INDEX` is not `0..31`. -/
  | spIndexNamesNoRegister
deriving DecidableEq, Repr

/-- DESIGN CHOICE (log 1, unsafe): the parameter values behind `State.reset`, those 95_test_vectors gives as its default
configuration. The spec fixes none of them (R6, D13). -/
def Config.standard : Config :=
  { memBase := 0x20000000, memLength := 4096, memInit := [], pcReset := 0x20000000, spReset := 0, spIndex := 2 }

/-- FREE VALUE (log 3): byte `k` of the window that the `n`-th faulting load leaves; R28 leaves the window unspecified. -/
opaque Config.unspecifiedByte (n k : Nat) : Byte

end Sys2Proof
end

