-- ==== Sys2Proof/Machine/Memory.lean ====
section
/-! DEFINITION. Byte stores in one canonical form, and the MemoryDevice over them (spec 20_memory R30 to R39; 10_state
R23, R24). -/

namespace Sys2Proof.Machine

/-- A byte store: (address, byte) pairs with addresses strictly rising and no pair equal to what an unlisted address
reads as. -/
abbrev Memory := List Host.Cell

/-- DESIGN CHOICE (log 2, unsafe): what an address that is not listed reads as. The spec leaves the bytes the host did
not write arbitrary (R6, R27). -/
def unlistedByte : Byte := 0

/-- The canonical form from address `lo` on. -/
def Memory.wfFrom (lo : Nat) : Memory → Bool
  | [] => true
  | (k, v) :: rest => decide (lo ≤ k) && decide (v ≠ unlistedByte) && wfFrom (k + 1) rest

/-- The canonical form: equal memories are equal lists. -/
def Memory.wf (m : Memory) : Bool := Memory.wfFrom 0 m

/-- Every listed address lies in `[lo, hi)`. -/
def Memory.within (lo hi : Nat) (m : Memory) : Bool := m.all fun c => decide (lo ≤ c.1) && decide (c.1 < hi)

/-- The byte at an address. -/
def Memory.readByte : Memory → Nat → Byte
  | [], _ => unlistedByte
  | (k, v) :: rest, a => if k = a then v else readByte rest a

/-- Write one byte, keeping the canonical form. -/
def Memory.writeByte : Memory → Nat → Byte → Memory
  | [], a, b => if b = unlistedByte then [] else [(a, b)]
  | (k, v) :: rest, a, b =>
    if a < k then (if b = unlistedByte then (k, v) :: rest else (a, b) :: (k, v) :: rest)
    else if a = k then (if b = unlistedByte then rest else (a, b) :: rest)
    else (k, v) :: writeByte rest a b

/-- The little-endian word at `a .. a+3` (R30, R34). -/
def Memory.readWord (m : Memory) (a : Nat) : Word :=
  wordOfBytes (m.readByte a) (m.readByte (a + 1)) (m.readByte (a + 2)) (m.readByte (a + 3))

/-- Store a word's four bytes at `a .. a+3`, least significant first (R31, R34). -/
def Memory.writeWord (m : Memory) (a : Nat) (v : Word) : Memory :=
  (((m.writeByte a (byteOfWord v 0)).writeByte (a + 1) (byteOfWord v 1)).writeByte (a + 2) (byteOfWord v 2)).writeByte
    (a + 3) (byteOfWord v 3)

/-- The MemoryDevice (R23). `bytes` is keyed by the address itself: `bytes[k]` of the spec is the byte at
`base_address + k`. -/
structure MemoryDevice where
  baseAddress : Word
  length      : Word
  bytes       : Memory
deriving DecidableEq, Repr

/-- The first address past the device, `base_address + length`, over the unbounded naturals (R32). -/
def MemoryDevice.endAddress (d : MemoryDevice) : Nat := d.baseAddress.toNat + d.length.toNat

/-- The contents are in canonical form and nothing is listed outside the device. -/
def MemoryDevice.wf (d : MemoryDevice) : Bool :=
  Memory.wf d.bytes && Memory.within d.baseAddress.toNat d.endAddress d.bytes

/-- The bounds check of R32, one for `read` and `write`; over the unbounded naturals. -/
def MemoryDevice.inBounds (d : MemoryDevice) (address : Word) : Bool :=
  decide (d.baseAddress.toNat ≤ address.toNat) && decide (address.toNat + 4 ≤ d.endAddress)

/-- The error result of a device access: the byte address of the failing access (R30, R111, R112). -/
structure OutOfBounds where
  address : Word
deriving DecidableEq, Repr

/-- The byte the device holds at an address. -/
def MemoryDevice.byteAt (d : MemoryDevice) (a : Nat) : Byte := d.bytes.readByte a

/-- `read(address)`, `MemRead(address, 4)` (R30). -/
def MemoryDevice.read (d : MemoryDevice) (address : Word) : Except OutOfBounds Word :=
  if d.inBounds address then .ok (d.bytes.readWord address.toNat) else .error { address := address }

/-- `write(address, value)`, `MemWrite(address, 4, value)` (R31). -/
def MemoryDevice.write (d : MemoryDevice) (address value : Word) : Except OutOfBounds MemoryDevice :=
  if d.inBounds address then .ok { d with bytes := d.bytes.writeWord address.toNat value }
  else .error { address := address }

/-- List the cells that lie inside `[lo, hi)` in canonical form, a later cell over an earlier one. -/
def Memory.ofCells (lo hi : Nat) : List Host.Cell → Memory → Memory
  | [], m => m
  | (a, b) :: rest, m => ofCells lo hi rest (if lo ≤ a ∧ a < hi then m.writeByte a b else m)

/-- Create a device with a base, a length and contents (R6, R23); a cell outside it has no byte to go to (log 2). -/
def MemoryDevice.create (base length : Word) (init : List Host.Cell) : MemoryDevice :=
  { baseAddress := base, length := length, bytes := Memory.ofCells base.toNat (base.toNat + length.toNat) init [] }

/-- Write a program, "raw 32-bit words at specific addresses", before the Hart is constructed (R132 step 2). -/
def MemoryDevice.writeProgram (d : MemoryDevice) : List (Word × Word) → Except OutOfBounds MemoryDevice
  | [] => .ok d
  | (a, v) :: rest =>
    match d.write a v with
    | .ok d' => writeProgram d' rest
    | .error e => .error e

end Sys2Proof.Machine
end

