-- ==== Sys2Proof/Machine/Cache.lean ====
section
/-! DEFINITION. The InstructionCache: its state, `load`, `setIndex` and the word a hit returns (spec 10_state R20;
20_memory R40, R42, R47). `fetch` needs the fault names and stands in Machine/Ops.lean. -/

namespace Sys2Proof.Machine

/-- The InstructionCache (R20). `window` is the buffer of 1024 bytes, held in the canonical form of `Memory` and keyed by
the offset `0 .. 1023`: `window[k]` of the spec is `window.readByte k`. -/
structure InstructionCache where
  bottom : Word
  top    : Word
  index  : Word
  window : Memory
deriving DecidableEq, Repr

/-- The buffer is canonical and lists no offset past its 1024 bytes. -/
def InstructionCache.bufferWf (c : InstructionCache) : Bool := Memory.wf c.window && Memory.within 0 cacheSize c.window

/-- The offset of a location in the window, `location - bottom` (R42). -/
def InstructionCache.offset (c : InstructionCache) (location : Word) : Nat := location.toNat - c.bottom.toNat

/-- Check 3 of R41, over the unbounded naturals. The last clause follows from the first two wherever
`top = bottom + 1024`; elsewhere, in states no run reaches, it keeps the read inside the buffer (log 6). -/
def InstructionCache.inWindow (c : InstructionCache) (location : Word) : Bool :=
  decide (c.bottom.toNat ≤ location.toNat) && decide (location.toNat + 4 ≤ c.top.toNat) &&
    decide (c.offset location + 4 ≤ cacheSize)

/-- The word a hit returns (R42, R50). -/
def InstructionCache.wordAt (c : InstructionCache) (location : Word) : Word := c.window.readWord (c.offset location)

/-- `setIndex(location)`: unconditional, no check, no wrap to the sentinel (R47). -/
def InstructionCache.setIndex (c : InstructionCache) (location : Word) : InstructionCache := { c with index := location }

/-- The copy loop of `load` (R40): `n` more word reads from `target + 4k` on, in ascending order, each stored at
`window[4k .. 4k+3]`; the first read that is out of bounds ends it. -/
def copyWords (d : MemoryDevice) (target : Word) : (n k : Nat) → Memory → Except OutOfBounds Memory
  | 0, _, window => .ok window
  | n + 1, k, window =>
    match d.read (target + BitVec.ofNat 32 (4 * k)) with
    | .ok v => copyWords d target n (k + 1) (window.writeWord (4 * k) v)
    | .error e => .error e

/-- The bytes `k .. k+n-1` of the window that a faulting load leaves, each free (R28, log 3). -/
def unspecifiedBytes (free : Nat) : (n k : Nat) → Memory → Memory
  | 0, _, window => window
  | n + 1, k, window => unspecifiedBytes free n (k + 1) (window.writeByte k (Config.unspecifiedByte free k))

/-- What `load` leaves and, if a read failed, which (R40, R28). -/
structure LoadResult where
  cache  : InstructionCache
  failed : Option OutOfBounds
deriving DecidableEq, Repr

/-- `load(target, memory)` (R40): the bounds and the cursor are set first, then the 256 word reads are made. `free`
numbers the window that is left unspecified when a read fails. -/
def loadCache (free : Nat) (target : Word) (d : MemoryDevice) : LoadResult :=
  match copyWords d target cacheWords 0 [] with
  | .ok window =>
    { cache := { bottom := target, top := target + 1024, index := target, window := window }, failed := none }
  | .error e =>
    { cache := { bottom := target, top := target + 1024, index := target,
                 window := unspecifiedBytes free cacheSize 0 [] }, failed := some e }

/-- The register file after reset: zero, and `SP_RESET` in `x[SP_INDEX]` (R27, R130, D11, D12). An index past 31 is a
refused configuration and writes nothing. -/
def resetRegisters (spIndex : Nat) (spReset : Word) : Vector Word 32 :=
  (Vector.replicate 32 0).setIfInBounds spIndex spReset

end Sys2Proof.Machine
end

