-- ==== Sys2Proof/Machine/State.lean ====
section
/-! DEFINITION. The machine's whole state, the reasons a step can stop, and reset (spec 10_state R10 to R28; 60_exceptions
R111; 70_reset_and_hazards R130). -/

namespace Sys2Proof.Machine

/-- The four faults (R111). The fault latch holds one of them with the value recorded (R22), and a step that ends in a
halted core answers it. All are SAFE: the core stops where the spec says it stops. -/
inductive Fault where
  /-- A word access outside the device (code 1). Raised by the cache load at reset only; the address of the failing
  access. -/
  | outOfBounds (address : Word)
  /-- `pc mod 4 ≠ 0` at a fetch (code 2). Raised by `rising`; the `pc`. -/
  | misalignedFetch (address : Word)
  /-- `pc = 0` at a fetch (code 3). Raised by `rising`; the value recorded is 0. -/
  | nullFetch
  /-- An aligned non-zero `pc` outside the window at a fetch, or `top - 4` off the cursor (code 4). Raised by `rising`;
  the `pc`. -/
  | cacheMiss (address : Word)
deriving DecidableEq, Repr

/-- Why the model gives no meaning. All are SAFE: nothing is claimed of what follows. -/
inductive Refusal where
  /-- Raised by an arm of `exec` whose instruction has no meaning yet; none is left. -/
  | notModelled (mnemonic : String)
  /-- Raised when the host constructs a Hart with a configuration that R6 refuses. -/
  | refusedConfiguration (violation : ConfigViolation)
deriving DecidableEq, Repr

/-- The complete state (10_state's opening list: "exactly these and nothing else, fault latch apart"), and the model's
own `freeCount`. -/
structure State where
  /-- `x0` to `x31` (R10, R11). -/
  regs      : Vector Word 32
  /-- The program counter (R13). -/
  pc        : Word
  /-- `bottom`, `top`, `index`, `window` (R20). -/
  cache     : InstructionCache
  /-- `base_address`, `length`, `bytes` (R23). -/
  device    : MemoryDevice
  /-- The fault latch (R22). -/
  fault     : Option Fault
  /-- The MODEL'S own: how many unspecified windows have been drawn (log 3). -/
  freeCount : Nat
deriving DecidableEq, Repr

/-- Reset is the construction of the Hart on an existing device (R130), as one atomic step. A load that fails latches
`OutOfBounds` and leaves the core halted (R28). -/
def State.construct (free : Nat) (pcReset spReset : Word) (spIndex : Nat) (d : MemoryDevice) : State :=
  let l := loadCache free pcReset d
  { regs := resetRegisters spIndex spReset
    pc := pcReset
    cache := l.cache
    device := d
    fault := l.failed.map fun e => .outOfBounds e.address
    freeCount := if l.failed.isSome then free + 1 else free }

/-- The core that a configuration describes: the device is created with its contents, then the Hart is constructed
(R6, R130, R132). -/
def State.ofConfig (c : Config) : State :=
  State.construct 0 c.pcReset c.spReset c.spIndex (MemoryDevice.create c.memBase c.memLength c.memInit)

/-- The machine right after reset, under the parameters of `Config.standard` (log 1). -/
def State.reset : State := State.ofConfig Config.standard

end Sys2Proof.Machine
end

