-- ==== Sys2Proof/Machine/Flags.lean ====
section
/-! DEFINITION. The hardware has no flags (spec 10_state R17: "There are no status flags, condition codes or predicates";
00_scope R8: "flags written" is "none" in every instruction rule; R96: the carry out of bit 31 is recorded nowhere). There
is no flag computation to define; this file says so in the place where a reader looks for one. -/
end

