-- ==== Sys2Proof/Machine/Operands.lean ====
section
/-! DEFINITION. Registers, the program counter and the two immediates as operands (spec 10_state R10 to R16; 30_encoding
R64 to R66). -/

namespace Sys2Proof.Machine

/-- `x[i]`: every register, register 0 included, reads what was last written to it (R8, R11). -/
def State.reg (s : State) (i : RegIdx) : Word := s.regs[i]

/-- `x[i] <- v`; register 0 is written like any other (R8, R11). -/
def State.setReg (s : State) (i : RegIdx) (v : Word) : State := { s with regs := s.regs.set i v }

/-- `pc <- t` (R8). -/
def State.setPc (s : State) (t : Word) : State := { s with pc := t }

/-- The I-type immediate as an operand: zero-extended, not scaled (R64). -/
def immI (imm12 : BitVec 12) : Word := imm12.setWidth 32

/-- The J-type magnitude as an operand: zero-extended, in bytes, not scaled (R65). -/
def immJ (imm19 : BitVec 19) : Word := imm19.setWidth 32

/-- The link value `pc +32 4` (R90). -/
def linkValue (pc : Word) : Word := pc + 4

/-- The value a `JAL` writes to `pc` in `rising` (R90, R91): not the address of the next instruction, to which `falling`
still adds 4 (R13). -/
def jumpValue (pc : Word) (imm19 : BitVec 19) : Direction → Word
  | .forward => pc + immJ imm19
  | .backward => pc - immJ imm19

end Sys2Proof.Machine
end

