-- ==== Sys2Proof/Machine/Ops.lean ====
section
/-! DEFINITION. The shared operations over the state: raising a fault, fetching through the cache, moving the cursor
(spec 20_memory R41 to R47; 60_exceptions R111 to R115). There is no return from a fault (R115): the only way out is a new
construction (`State.construct`). -/

namespace Sys2Proof.Machine

/-- `raise F(a)` (R114): the latch takes the fault and nothing else changes. It is applied to the state before the phase
began. -/
def State.raise (s : State) (f : Fault) : State := { s with fault := some f }

/-- The core is halted (R22, R115). -/
def State.halted (s : State) : Bool := s.fault.isSome

/-- The numeric code of a fault (R111). -/
def Fault.code : Fault → Nat
  | .outOfBounds _ => 1
  | .misalignedFetch _ => 2
  | .nullFetch => 3
  | .cacheMiss _ => 4

/-- The value recorded with a fault (R111). -/
def Fault.address : Fault → Word
  | .outOfBounds a => a
  | .misalignedFetch a => a
  | .nullFetch => 0
  | .cacheMiss a => a

/-- The cursor after a fast-path hit at `location`: 0, the sentinel, where it reaches `top` (R43). -/
def InstructionCache.advance (c : InstructionCache) (location : Word) : Word :=
  if location + 4 = c.top then 0 else location + 4

/-- `fetch(location)`, `CacheFetch(location)` (R41): the six checks in their order. A hit gives the word and the cache with
the cursor moved (R43, R44); a raise changes nothing. -/
def cacheFetch (c : InstructionCache) (location : Word) : Except Fault (Word × InstructionCache) :=
  if location.toNat % 4 ≠ 0 then .error (.misalignedFetch location)
  else if location = 0 then .error .nullFetch
  else if c.inWindow location = false then .error (.cacheMiss location)
  else if location = c.index then .ok (c.wordAt location, c.setIndex (c.advance location))
  else if location.toNat < c.top.toNat - 4 then .ok (c.wordAt location, c.setIndex (location + 4))
  else .error (.cacheMiss location)

/-- The state with another cache. -/
def State.setCache (s : State) (c : InstructionCache) : State := { s with cache := c }

/-- The state with another MemoryDevice. -/
def State.setDevice (s : State) (d : MemoryDevice) : State := { s with device := d }

/-- Put a word where the next fetch, at `pc`, reads the window; a `pc` with no place in the buffer has none (log 5). -/
def State.placeWord (s : State) (w : Word) : State :=
  if s.cache.bottom.toNat ≤ s.pc.toNat ∧ s.cache.offset s.pc + 4 ≤ cacheSize then
    s.setCache { s.cache with window := s.cache.window.writeWord (s.cache.offset s.pc) w }
  else s

end Sys2Proof.Machine
end

