-- ==== Sys2Proof/Machine/AddImmediate.lean ====
section
/-! DEFINITION. ADDI (spec 42_add_immediate R95 to R97). -/

namespace Sys2Proof.Machine

/-- ADDI (R95), inside `rising`: `x[rs1] <- x[rs1] +32 zext_12(imm12)`. The `rd` field selects nothing. -/
def execAddi (rs1 : RegIdx) (imm12 : BitVec 12) (_rd : RegIdx) (s : State) : Host.Outcome State Fault Refusal :=
  .next (s.setReg rs1 (s.reg rs1 + immI imm12))

end Sys2Proof.Machine
end

