-- ==== Sys2Proof/Machine/JumpAndLink.lean ====
section
/-! DEFINITION. JAL (spec 41_jump_and_link R90 to R93). -/

namespace Sys2Proof.Machine

/-- JAL (R90), inside `rising`: link first, then the jump; nothing is checked and nothing raises. -/
def execJal (rd : RegIdx) (imm19 : BitVec 19) (dir : Direction) (s : State) : Host.Outcome State Fault Refusal :=
  .next ((s.setReg rd (linkValue s.pc)).setPc (jumpValue s.pc imm19 dir))

end Sys2Proof.Machine
end

