-- ==== Sys2Proof/Machine/Unrecognised.lean ====
section
/-! DEFINITION. Every other word (spec 43_unrecognised R100). -/

namespace Sys2Proof.Machine

/-- An unrecognised word (R100): nothing. -/
def execUnrecognised (_w : Word) (s : State) : Host.Outcome State Fault Refusal := .next s

end Sys2Proof.Machine
end

