-- ==== Sys2Proof/Machine/Dispatch.lean ====
section
/-! DEFINITION. What each instruction does inside `rising` (spec 40_cycle R81), one arm per row of the opcode table. -/

namespace Sys2Proof.Machine

def exec (i : Instr) (s : State) : Host.Outcome State Fault Refusal :=
  match i with
  | .jal rd imm19 dir => Sys2Proof.Machine.execJal rd imm19 dir s
  | .addi rs1 imm12 rd => Sys2Proof.Machine.execAddi rs1 imm12 rd s
  | .unrecognised w => Sys2Proof.Machine.execUnrecognised w s

end Sys2Proof.Machine
end

