-- ==== Sys2Proof/Machine/Cycle.lean ====
section
/-! DEFINITION. The two phases and the cycle they make (spec 40_cycle R80 to R85; 60_exceptions R114, R115). -/

namespace Sys2Proof.Machine

/-- How an instruction's outcome ends the phase that began in `before`: a raise discards what the phase wrote and sets
the latch (R8, R114). -/
def settle (before : State) : Host.Outcome State Fault Refusal → Except Refusal State
  | .next t => .ok t
  | .fault f => .ok (before.raise f)
  | .refused r => .error r

/-- `rising` (R81): fetch at `pc`, decode, execute. A halted core does nothing (R115). -/
def rising (s : State) : Except Refusal State :=
  match s.fault with
  | some _ => .ok s
  | none =>
    match cacheFetch s.cache s.pc with
    | .error f => .ok (s.raise f)
    | .ok (w, c) => settle s (exec (decode w) (s.setCache c))

/-- `falling` (R82): `pc + 4` without a condition, and the cursor to the new `pc`. A halted core does nothing (R115). -/
def falling (s : State) : State :=
  match s.fault with
  | some _ => s
  | none => (s.setPc (s.pc + 4)).setCache (s.cache.setIndex (s.pc + 4))

/-- One cycle: `rising`, then `falling` (R80). -/
def cycle (s : State) : Except Refusal State :=
  match rising s with
  | .ok t => .ok (falling t)
  | .error r => .error r

/-- What a cycle answers to the host: a halted core is a fault outcome, never a final state, and the fault is the one the
latch holds (R87 (2), R115, R134; log 7). -/
def report : Except Refusal State → Host.Outcome State Fault Refusal
  | .error r => .refused r
  | .ok t =>
    match t.fault with
    | some f => .fault f
    | none => .next t

end Sys2Proof.Machine
end

