-- ==== Sys2Proof/Machine/Step.lean ====
section
/-! DEFINITION. The step: one whole cycle, as the host clocks it (spec 40_cycle R80, R83; 70_reset_and_hazards R134). -/

namespace Sys2Proof.Machine

/-- One step is one `rising` followed by one `falling` (log 7). -/
def step (s : State) : Host.Outcome State Fault Refusal := report (cycle s)

/-- `s` with the instruction of `decodeTableWord nbits w` in the window where the next `rising` fetches (log 5). -/
def State.withFetchWord (s : State) (nbits w : Nat) : State := s.placeWord (BitVec.ofNat 32 (w % 2 ^ nbits))

end Sys2Proof.Machine
end

