-- ==== Sys2Proof/Machine/HostPort.lean ====
section
/-! DEFINITION. What the host may do to a constructed core (spec 40_cycle R83, R86, R87; 60_exceptions R112;
70_reset_and_hazards R133), and the refused configurations (00_scope R6). -/

namespace Sys2Proof.Machine

/-- The constraints of R6, checked in the order the table gives them (log 8). -/
def configViolation (memBase memLength pcReset : Word) (spIndex : Nat) : Option ConfigViolation :=
  if 2 ^ 32 < memBase.toNat + memLength.toNat then some .deviceEndsPastAddressSpace
  else if 2 ^ 32 ≤ pcReset.toNat + 1024 then some .windowEndsPastAddressSpace
  else if 32 ≤ spIndex then some .spIndexNamesNoRegister
  else none

/-- What the host can observe between any two phases (R86). -/
structure Observation where
  regs   : Vector Word 32
  pc     : Word
  bottom : Word
  top    : Word
  index  : Word
  window : Memory
  fault  : Option Fault
deriving DecidableEq, Repr

/-- `print()` as hardware: read-only observation (R86). -/
def State.observe (s : State) : Observation :=
  { regs := s.regs, pc := s.pc, bottom := s.cache.bottom, top := s.cache.top, index := s.cache.index,
    window := s.cache.window, fault := s.fault }

/-- The host's operations (R133); to stop clocking is to invoke none. -/
inductive HostOp where
  | rising
  | falling
  | observe
  | read (address : Word)
  | write (address value : Word)
  | construct (pcReset spReset : Word) (spIndex : Nat)
deriving DecidableEq, Repr

/-- The operation constructs a new Hart. -/
def HostOp.isConstruct : HostOp → Bool
  | .construct _ _ _ => true
  | .rising | .falling | .observe | .read _ | .write _ _ => false

/-- The operation writes the MemoryDevice. -/
def HostOp.isWrite : HostOp → Bool
  | .write _ _ => true
  | .rising | .falling | .observe | .read _ | .construct _ _ _ => false

/-- What an operation returns to the host (R87). -/
inductive HostReply where
  | done
  /-- The fault the latch holds (R87 (2)). -/
  | faulted (f : Fault)
  | value (v : Word)
  /-- The host's own access failed; the Hart is not concerned (R112). -/
  | outOfBounds (address : Word)
  | observation (o : Observation)
deriving DecidableEq, Repr

/-- The reply to an operation that ends in a state of the Hart: "done" or the fault the latch holds (R87, log 8). -/
def hartReply (s : State) : HostReply :=
  match s.fault with
  | some f => .faulted f
  | none => .done

/-- One host operation (R133): the next state and the reply, or a refused configuration. -/
def hostApply (op : HostOp) (s : State) : Except Refusal (State × HostReply) :=
  match op with
  | .rising =>
    match rising s with
    | .ok t => .ok (t, hartReply t)
    | .error r => .error r
  | .falling => .ok (falling s, hartReply (falling s))
  | .observe => .ok (s, .observation s.observe)
  | .read a =>
    match s.device.read a with
    | .ok v => .ok (s, .value v)
    | .error e => .ok (s, .outOfBounds e.address)
  | .write a v =>
    match s.device.write a v with
    | .ok d => .ok (s.setDevice d, .done)
    | .error e => .ok (s, .outOfBounds e.address)
  | .construct pcReset spReset spIndex =>
    match configViolation s.device.baseAddress s.device.length pcReset spIndex with
    | some v => .error (.refusedConfiguration v)
    | none =>
      let t := State.construct s.freeCount pcReset spReset spIndex s.device
      .ok (t, hartReply t)

/-- A sequence of host operations, in the one total order in which the host invokes them (R51). -/
def hostRun : List HostOp → State → Except Refusal State
  | [], s => .ok s
  | op :: rest, s =>
    match hostApply op s with
    | .ok (t, _) => hostRun rest t
    | .error r => .error r

/-- Construct a core from a configuration, refusing what R6 refuses; a load that fails answers the fault it latched
(R28, R87 (1)). -/
def constructCore (c : Config) : Host.Outcome State Fault Refusal :=
  match configViolation c.memBase c.memLength c.pcReset c.spIndex with
  | some v => .refused (.refusedConfiguration v)
  | none => report (.ok (State.ofConfig c))

end Sys2Proof.Machine
end

