-- ==== Sys2Proof/Safety.lean ====
section
/-! DEFINITION. What counts as a safe run, and the invariant of the states on a cycle boundary (spec 10_state R21;
60_exceptions R115; 70_reset_and_hazards R134). -/

namespace Sys2Proof.Machine

/-- No fault is latched. A halted state is never a final state (R115). -/
abbrev State.Running (s : State) : Prop := s.fault = none

/-- A safe run: `n` whole cycles with no fault (R134). -/
def SafeFor : Nat → State → Prop
  | 0, s => s.Running
  | n + 1, s => s.Running ∧ ∃ t, step s = .next t ∧ SafeFor n t

/-- The window covers 1024 bytes that do not wrap (R21 (a)), and its buffer is in canonical form. -/
abbrev InstructionCache.Placed (c : InstructionCache) : Prop :=
  c.bottom.toNat + 1024 = c.top.toNat ∧ c.bufferWf = true

/-- The device fits the address space (R6) and its contents are in canonical form. -/
abbrev MemoryDevice.Placed (d : MemoryDevice) : Prop := d.endAddress ≤ 2 ^ 32 ∧ d.wf = true

/-- The invariant of a cycle boundary (R21 (a), (c)). -/
abbrev State.Inv (s : State) : Prop := s.cache.Placed ∧ s.cache.index = s.pc ∧ s.device.Placed

/-- The fetch checks of R84: `pc` aligned, non-zero, `bottom ≤ pc ≤ top - 4`. -/
abbrev State.Fetchable (s : State) : Prop :=
  s.pc.toNat % 4 = 0 ∧ s.pc ≠ 0 ∧ s.cache.bottom.toNat ≤ s.pc.toNat ∧ s.pc.toNat + 4 ≤ s.cache.top.toNat

/-- On a cycle boundary, running, with a fetchable `pc` at which the window holds a word that decodes to `i`. -/
abbrev State.Executes (s : State) (i : Instr) : Prop :=
  s.Running ∧ s.Inv ∧ s.Fetchable ∧ decode (s.cache.wordAt s.pc) = i

/-- The whole window lies inside the device, so that no read of `load` fails (R40, R132). -/
abbrev MemoryDevice.HoldsWindow (d : MemoryDevice) (target : Word) : Prop :=
  d.baseAddress.toNat ≤ target.toNat ∧ target.toNat + 1024 ≤ d.endAddress

/-- `n` fetches at consecutive addresses from `location` on, by a direct user of the cache (R43). -/
def fetchRun (c : InstructionCache) (location : Word) : Nat → Except Fault (List Word × InstructionCache)
  | 0 => .ok ([], c)
  | n + 1 =>
    match cacheFetch c location with
    | .error f => .error f
    | .ok (w, c') =>
      match fetchRun c' (location + 4) n with
      | .error f => .error f
      | .ok (ws, c'') => .ok (w :: ws, c'')

end Sys2Proof.Machine
end

