-- ==== Sys2Proof/Certificates/Slice0/Obligations.lean ====
section
/-! DEFINITION. The statements for the provers. Each docstring names the rule or section of the spec it formalises; a
statement that rests on a choice of the model says so and names the log entry. -/

open Sys2Proof Sys2Proof.Machine

/-! ### Encoding and decode -/

/-- Words written out from R67's layouts (95_test_vectors section 2.3) decode to the instructions they stand for, through
the byte-level decoder. -/
def Obligations.SpecWordsDecodeAsTheSpecLists : Prop :=
  decodeTableWord 32 0x00128293 = some (.addi 5 1 5) ∧
  decodeTableWord 32 0x00430313 = some (.addi 6 4 6) ∧
  decodeTableWord 32 0xFFFF8F93 = some (.addi 31 4095 31) ∧
  decodeTableWord 32 0x80028493 = some (.addi 5 2048 9) ∧
  decodeTableWord 32 0x8000C0EF = some (.jal 1 12 .backward) ∧
  decodeTableWord 32 0x0000406F = some (.jal 0 4 .forward) ∧
  decodeTableWord 32 0x7FFFFFEF = some (.jal 31 524287 .forward) ∧
  decodeTableWord 32 0xFF5FF0EF = some (.jal 1 521727 .backward) ∧
  decodeTableWord 32 0x00001013 = some (.unrecognised 0x00001013) ∧
  decodeTableWord 32 0xFFFFFFFF = some (.unrecognised 0xFFFFFFFF) ∧
  decodeTableWord 32 0x00000000 = some (.unrecognised 0x00000000)

/-- R68: the dispatch on the low three bits, then on the full opcode and `funct3`; total, and every other word is the
unrecognised one, which executes as a no-op and raises nothing. -/
def Obligations.DecodeIsTheSpecDispatch : Prop :=
  (∀ (w : Word) (s : State), exec (.unrecognised w) s = .next s) ∧
  ∀ w : Word,
    (w.extractLsb 2 0 = 0b111#3 →
      (w.extractLsb 6 0 = 0b1101111#7 →
        decode w = .jal (w.extractLsb 11 7).toFin (w.extractLsb 30 12)
          (if w.extractLsb 31 31 = 1#1 then .backward else .forward)) ∧
      (w.extractLsb 6 0 ≠ 0b1101111#7 → decode w = .unrecognised w)) ∧
    (w.extractLsb 2 0 = 0b011#3 →
      (w.extractLsb 14 12 = 0b000#3 ∧ w.extractLsb 6 0 = 0b0010011#7 →
        decode w = .addi (w.extractLsb 19 15).toFin (w.extractLsb 31 20) (w.extractLsb 11 7).toFin) ∧
      (¬ (w.extractLsb 14 12 = 0b000#3 ∧ w.extractLsb 6 0 = 0b0010011#7) → decode w = .unrecognised w)) ∧
    (w.extractLsb 2 0 ≠ 0b111#3 ∧ w.extractLsb 2 0 ≠ 0b011#3 → decode w = .unrecognised w)

/-- Every well-formed instruction of every family, with every operand at every value the encoding admits, decodes back
from its word. -/
def Obligations.DecodeOfEncodeIsTheInstruction : Prop :=
  ∀ i : Instr, i.wellFormed = true → decode (encode i) = i

/-- The other direction: every word decodes to a well-formed instruction, and encodes back to the same word; no bit is
dropped. -/
def Obligations.EncodeOfDecodeIsTheWord : Prop :=
  ∀ w : Word, (decode w).wellFormed = true ∧ encode (decode w) = w

/-- R71: the encoders are the shift-and-or formulas, and decode inverts them. (The spec's `ADDI` drops the ignored `rd`;
the model's constructor keeps it, log 4.) -/
def Obligations.EncodersAreTheShiftFormulas : Prop :=
  (∀ (rd : RegIdx) (imm19 : BitVec 19) (dir : Direction),
    encode (.jal rd imm19 dir) =
      ((match dir with | .forward => 0#32 | .backward => 1#32 : Word) <<< 31) ||| (imm19.setWidth 32 <<< 12) |||
        (BitVec.ofNat 32 rd.val <<< 7) ||| 0x6F#32 ∧
    decode (encode (.jal rd imm19 dir)) = .jal rd imm19 dir) ∧
  (∀ (rs1 : RegIdx) (imm12 : BitVec 12) (rd : RegIdx),
    encode (.addi rs1 imm12 rd) =
      (imm12.setWidth 32 <<< 20) ||| (BitVec.ofNat 32 rs1.val <<< 15) ||| (0#32 <<< 12) |||
        (BitVec.ofNat 32 rd.val <<< 7) ||| 0x13#32 ∧
    decode (encode (.addi rs1 imm12 rd)) = .addi rs1 imm12 rd)

/-- R67's match and mask pairs select exactly the instruction decode gives, and no word is in both rows. -/
def Obligations.OpcodeMapSelectsTheInstruction : Prop :=
  ∀ w : Word,
    (w &&& 0x0000007F = 0x0000006F ↔ ∃ rd imm19 dir, decode w = .jal rd imm19 dir) ∧
    (w &&& 0x0000707F = 0x00000013 ↔ ∃ rs1 imm12 rd, decode w = .addi rs1 imm12 rd) ∧
    (¬ (w &&& 0x0000007F = 0x0000006F) ∧ ¬ (w &&& 0x0000707F = 0x00000013) ↔ decode w = .unrecognised w) ∧
    ¬ (w &&& 0x0000007F = 0x0000006F ∧ w &&& 0x0000707F = 0x00000013)

/-- R67's counting of the words of each row. -/
def Obligations.OpcodeMapWordCounts : Prop :=
  Nat.card { w : Word // ∃ rd imm19 dir, decode w = .jal rd imm19 dir } = 2 ^ 25 ∧
  Nat.card { w : Word // ∃ rs1 imm12 rd, decode w = .addi rs1 imm12 rd } = 2 ^ 22 ∧
  Nat.card { w : Word // decode w = .unrecognised w } = 2 ^ 32 - 2 ^ 25 - 2 ^ 22

/-- R61, R62: the three layouts are views over the same bits, each field at its position, each covering all 32 bits. -/
def Obligations.LayoutsAreViewsOfTheSameBits : Prop :=
  (∀ w : Word,
    wordOfRType (rTypeOfWord w) = w ∧ wordOfIType (iTypeOfWord w) = w ∧ wordOfJType (jTypeOfWord w) = w) ∧
  (∀ v : RType, rTypeOfWord (wordOfRType v) = v) ∧
  (∀ v : IType, iTypeOfWord (wordOfIType v) = v) ∧
  (∀ v : JType, jTypeOfWord (wordOfJType v) = v) ∧
  (∀ w : Word,
    rTypeOfWord w = ⟨w.extractLsb 6 0, w.extractLsb 11 7, w.extractLsb 14 12, w.extractLsb 19 15, w.extractLsb 24 20,
      w.extractLsb 31 25⟩ ∧
    iTypeOfWord w = ⟨w.extractLsb 6 0, w.extractLsb 11 7, w.extractLsb 14 12, w.extractLsb 19 15, w.extractLsb 31 20⟩ ∧
    jTypeOfWord w = ⟨w.extractLsb 6 0, w.extractLsb 11 7, w.extractLsb 30 12, w.extractLsb 31 31⟩)

/-- R97: the add-immediate opcode with another `funct3`, and `low3 = 0b011` with another opcode, are unrecognised. -/
def Obligations.OtherImmediateWordsAreUnrecognised : Prop :=
  ∀ w : Word,
    (w.extractLsb 6 0 = 0b0010011#7 → w.extractLsb 14 12 ≠ 0b000#3 → decode w = .unrecognised w) ∧
    (w.extractLsb 2 0 = 0b011#3 → w.extractLsb 6 3 ≠ 0b0010#4 → decode w = .unrecognised w)

/-- The byte-level decoder takes four bytes, lowest address first, leaves the rest, and rejects fewer by name. -/
def Obligations.BytesDecodeFourAtATime : Prop :=
  (∀ (w : Word) (rest : List Byte), decodeBytes (bytesOfWord w ++ rest) = .ok (decode w, rest)) ∧
  (∀ bs : List Byte, bs.length < 4 → decodeBytes bs = .error (.tooFewBytes bs.length))

/-- R72: the word of each line of the spec's own listing syntax. -/
def Obligations.ListingLinesAssembleToTheEncoders : Prop :=
  (∀ (rd : RegIdx) (n : BitVec 19), decode (assemble (.jalPlus rd n)) = .jal rd n .forward ∧
    decode (assemble (.jalMinus rd n)) = .jal rd n .backward) ∧
  (∀ (rs rd : RegIdx) (n : BitVec 12), decode (assemble (.addi rs n)) = .addi rs n rs ∧
    decode (assemble (.addiRd rs n rd)) = .addi rs n rd) ∧
  assemble .nop = 0x00000000 ∧ decode (assemble .nop) = .unrecognised 0x00000000

/-! ### The instructions -/

/-- R91 (and R90's two writes): what `JAL` answers on every state, with the three additions modulo `2^32`; every
register number, 0 included. -/
def Obligations.JalLinksAndMovesThePc : Prop :=
  ∀ (rd : RegIdx) (imm19 : BitVec 19) (dir : Direction) (s : State),
    ∃ t, exec (.jal rd imm19 dir) s = .next t ∧
      (t.reg rd).toNat = (s.pc.toNat + 4) % 2 ^ 32 ∧
      t.pc.toNat =
        (match dir with
         | .forward => (s.pc.toNat + imm19.toNat) % 2 ^ 32
         | .backward => if imm19.toNat ≤ s.pc.toNat then s.pc.toNat - imm19.toNat
                        else s.pc.toNat + 2 ^ 32 - imm19.toNat) ∧
      (∀ r, r ≠ rd → t.reg r = s.reg r) ∧ t.cache = s.cache ∧ t.device = s.device ∧ t.fault = s.fault ∧
      t.freeCount = s.freeCount

/-- R95, R96: which words are `ADDI`; what it answers on every state: `rs1` is source and destination, the immediate is
unsigned, the sum wraps, the `rd` field is ignored, `pc` is not touched; and its cycle, whose `falling` adds 4. -/
def Obligations.AddiAddsIntoTheSourceRegister : Prop :=
  (∀ w : Word, w &&& 0x0000707F = 0x00000013 →
    decode w = .addi (w.extractLsb 19 15).toFin (w.extractLsb 31 20) (w.extractLsb 11 7).toFin) ∧
  (∀ (rs1 : RegIdx) (imm12 : BitVec 12) (rd : RegIdx) (s : State),
    (∃ t, exec (.addi rs1 imm12 rd) s = .next t ∧
      (t.reg rs1).toNat = ((s.reg rs1).toNat + imm12.toNat) % 2 ^ 32 ∧
      (∀ r, r ≠ rs1 → t.reg r = s.reg r) ∧ t.pc = s.pc ∧ t.cache = s.cache ∧ t.device = s.device ∧
      t.fault = s.fault ∧ t.freeCount = s.freeCount) ∧
    (∀ rd', exec (.addi rs1 imm12 rd') s = exec (.addi rs1 imm12 rd) s)) ∧
  (∀ (s : State) (rs1 : RegIdx) (imm12 : BitVec 12) (rd : RegIdx), s.Executes (.addi rs1 imm12 rd) →
    ∃ r t, rising s = .ok r ∧ r.pc = s.pc ∧ r.reg rs1 = s.reg rs1 + imm12.setWidth 32 ∧
      (∀ x, x ≠ rs1 → r.reg x = s.reg x) ∧ step s = .next t ∧ t.pc = s.pc + 4 ∧ (∀ x, t.reg x = r.reg x))

/-- R100: which words are unrecognised; such a word changes nothing, and costs one cycle in which only `pc` and the
cursor move. -/
def Obligations.UnrecognisedWordsAreSilentNoOps : Prop :=
  (∀ w : Word, w.extractLsb 6 0 ≠ 0b1101111#7 →
    ¬ (w.extractLsb 6 0 = 0b0010011#7 ∧ w.extractLsb 14 12 = 0b000#3) → decode w = .unrecognised w) ∧
  (∀ (w : Word) (s : State), exec (.unrecognised w) s = .next s) ∧
  (∀ (w : Word) (s : State), s.Executes (.unrecognised w) →
    rising s = .ok (s.setCache (s.cache.setIndex (if s.pc + 4 = s.cache.top then 0 else s.pc + 4))) ∧
    step s = .next ((s.setPc (s.pc + 4)).setCache (s.cache.setIndex (s.pc + 4))))

/-- The frame of every instruction (register-only, all of them): the destination register and, for `JAL`, `pc`; every
byte of memory, the window, the cursor and the latch stay. -/
def Obligations.InstructionsChangeOnlyTheirDestination : Prop :=
  ∀ (i : Instr) (s t : State), exec i s = .next t →
    (∀ r : RegIdx, (match i with
      | .jal rd _ _ => r ≠ rd
      | .addi rs1 _ _ => r ≠ rs1
      | .unrecognised _ => True) → t.reg r = s.reg r) ∧
    (match i with
      | .jal _ _ _ => True
      | .addi _ _ _ => t.pc = s.pc
      | .unrecognised _ => t.pc = s.pc) ∧
    (∀ a : Nat, t.device.byteAt a = s.device.byteAt a) ∧ t.device = s.device ∧ t.cache = s.cache ∧
    t.fault = s.fault ∧ t.freeCount = s.freeCount

/-- R111: the four faults, their codes and recorded values, and where each arises. No instruction raises one while
executing: each answers a next state from every state, with the latch as it was. `rising` raises codes 2 to 4 and records
`pc`; reset raises code 1 and records the address of the access that failed, as the device's own `read` and `write` do. -/
def Obligations.FaultsAriseInFetchOrReset : Prop :=
  (∀ (i : Instr) (s : State), ∃ t, exec i s = .next t ∧ t.fault = s.fault) ∧
  (∀ a : Word, (Fault.outOfBounds a).code = 1 ∧ (Fault.misalignedFetch a).code = 2 ∧ Fault.nullFetch.code = 3 ∧
    (Fault.cacheMiss a).code = 4 ∧ (Fault.outOfBounds a).address = a) ∧
  (∀ (s t : State) (f : Fault), s.Running → rising s = .ok t → t.fault = some f →
    f.address = s.pc ∧ (f.code = 2 ↔ s.pc.toNat % 4 ≠ 0) ∧ (f.code = 3 ↔ s.pc = 0) ∧
    (f.code = 4 ↔ s.pc.toNat % 4 = 0 ∧ s.pc ≠ 0) ∧ f.code ≠ 1 ∧
    (f.code = 4 → s.cache.Placed →
      ¬ (s.cache.bottom.toNat ≤ s.pc.toNat ∧ s.pc.toNat + 4 ≤ s.cache.top.toNat) ∨
      (s.pc.toNat + 4 = s.cache.top.toNat ∧ s.pc ≠ s.cache.index))) ∧
  (∀ (free : Nat) (pcReset spReset : Word) (spIndex : Nat) (d : MemoryDevice) (f : Fault),
    (State.construct free pcReset spReset spIndex d).fault = some f →
    f.code = 1 ∧ d.read f.address = .error ⟨f.address⟩) ∧
  (∀ (d : MemoryDevice) (a v : Word),
    a.toNat < d.baseAddress.toNat ∨ d.baseAddress.toNat + d.length.toNat < a.toNat + 4 →
    d.read a = .error ⟨a⟩ ∧ d.write a v = .error ⟨a⟩)

/-- R11: register 0 is ordinary: it reads what was last written, `ADDI` adds into it, `JAL` links into it, and a reset
whose stack pointer is another register leaves it 0. -/
def Obligations.RegisterZeroIsOrdinary : Prop :=
  (∀ (s : State) (v : Word), (s.setReg 0 v).reg 0 = v) ∧
  (∀ (s : State) (imm12 : BitVec 12) (rd : RegIdx),
    ∃ t, exec (.addi 0 imm12 rd) s = .next t ∧ t.reg 0 = s.reg 0 + imm12.setWidth 32) ∧
  (∀ (s : State) (imm19 : BitVec 19) (dir : Direction),
    ∃ t, exec (.jal 0 imm19 dir) s = .next t ∧ t.reg 0 = s.pc + 4) ∧
  (∀ (free : Nat) (pcReset spReset : Word) (spIndex : Nat) (d : MemoryDevice), spIndex ≠ 0 →
    (State.construct free pcReset spReset spIndex d).reg 0 = 0)

/-- R64, R65: where the immediates stand in the word; they are unsigned and unscaled; the J-type one is a sign and a
magnitude in bytes, with two zero offsets. -/
def Obligations.ImmediatesAreUnsignedAndUnscaled : Prop :=
  (∀ (w : Word) (rs1 : RegIdx) (imm12 : BitVec 12) (rd : RegIdx), decode w = .addi rs1 imm12 rd →
    imm12 = w.extractLsb 31 20) ∧
  (∀ (w : Word) (rd : RegIdx) (imm19 : BitVec 19) (dir : Direction), decode w = .jal rd imm19 dir →
    imm19 = w.extractLsb 30 12 ∧ (dir = .backward ↔ w.extractLsb 31 31 = 1#1)) ∧
  (∀ imm12 : BitVec 12, (immI imm12).toNat = imm12.toNat ∧ (immI imm12).toNat ≤ 4095 ∧
    (imm12.msb = true → 2048 ≤ (immI imm12).toNat)) ∧
  (∀ imm19 : BitVec 19, (immJ imm19).toNat = imm19.toNat ∧ (immJ imm19).toNat ≤ 524287) ∧
  (∀ (pc : Word) (imm19 : BitVec 19),
    (jumpValue pc imm19 .forward).toNat = (pc.toNat + imm19.toNat) % 2 ^ 32 ∧
    ((jumpValue pc imm19 .backward).toNat + imm19.toNat) % 2 ^ 32 = pc.toNat) ∧
  (∀ (pc : Word) (dir : Direction), jumpValue pc 0 dir = pc) ∧
  (∀ pc : Word, jumpValue pc 0x7FFFF .backward = pc - 524287)

/-- R12: which registers an instruction reads: `JAL` and an unrecognised word none, `ADDI` its `rs1` only. Changing any
other register beforehand changes that register afterwards and nothing else; changing `JAL`'s destination changes nothing. -/
def Obligations.InstructionsReadOnlyTheirSource : Prop :=
  (∀ (rd : RegIdx) (imm19 : BitVec 19) (dir : Direction) (s t : State) (r : RegIdx) (v : Word),
    exec (.jal rd imm19 dir) s = .next t →
    exec (.jal rd imm19 dir) (s.setReg r v) = .next (if r = rd then t else t.setReg r v)) ∧
  (∀ (rs1 : RegIdx) (imm12 : BitVec 12) (rd : RegIdx) (s t : State) (r : RegIdx) (v : Word),
    exec (.addi rs1 imm12 rd) s = .next t → r ≠ rs1 →
    exec (.addi rs1 imm12 rd) (s.setReg r v) = .next (t.setReg r v)) ∧
  (∀ (w : Word) (s t : State) (r : RegIdx) (v : Word),
    exec (.unrecognised w) s = .next t → exec (.unrecognised w) (s.setReg r v) = .next (t.setReg r v))

/-! ### The cycle -/

/-- A step runs the decoded instruction: where the fetch delivers a word, the step is `exec` of the decoded word on the
state with the cursor moved, followed by `falling`; and where `pc` is fetchable on a cycle boundary, the word is the one
made of the four window bytes at `pc`. -/
def Obligations.StepRunsTheDecodedInstruction : Prop :=
  (∀ (s : State) (w : Word) (c : InstructionCache), s.Running → cacheFetch s.cache s.pc = .ok (w, c) →
    step s = (match exec (decode w) (s.setCache c) with
      | .next t => .next (falling t)
      | .fault f => .fault f
      | .refused r => .refused r)) ∧
  (∀ (s : State) (i : Instr) (rest : List Byte), s.Running → s.Inv → s.Fetchable →
    decodeBytes (s.cache.window.readByte (s.cache.offset s.pc) ::
      s.cache.window.readByte (s.cache.offset s.pc + 1) ::
      s.cache.window.readByte (s.cache.offset s.pc + 2) ::
      s.cache.window.readByte (s.cache.offset s.pc + 3) :: rest) = .ok (i, rest) →
    i.wellFormed = true ∧
    step s = (match exec i (s.setCache (s.cache.setIndex (if s.pc + 4 = s.cache.top then 0 else s.pc + 4))) with
      | .next t => .next (falling t)
      | .fault f => .fault f
      | .refused r => .refused r))

/-- One step is what the host gets by invoking `rising` and then `falling` (R80, R87 (2), R133 (a)); the step answers the
state, or the fault the latch holds afterwards (log 7). -/
def Obligations.StepIsRisingThenFalling : Prop :=
  ∀ s : State, ∃ t, hostRun [.rising, .falling] s = .ok t ∧
    step s = (match t.fault with | none => .next t | some f => .fault f)

/-- A word placed for the next fetch is the instruction the next step runs (log 5): on a cycle boundary with a fetchable
`pc`, nothing but the four window bytes at `pc` changes. -/
def Obligations.PlacedWordIsTheNextInstruction : Prop :=
  ∀ (s : State) (w : Word), s.Running → s.Inv → s.Fetchable →
    (s.withFetchWord 32 w.toNat).Executes (decode w) ∧
    (s.withFetchWord 32 w.toNat).cache.wordAt s.pc = w ∧
    (∃ c, s.withFetchWord 32 w.toNat = s.setCache c ∧ c.bottom = s.cache.bottom ∧ c.top = s.cache.top ∧
      c.index = s.cache.index ∧
      ∀ k, k < s.cache.offset s.pc ∨ s.cache.offset s.pc + 4 ≤ k → c.window.readByte k = s.cache.window.readByte k)

/-- R84: the net effect of one whole cycle, row by row, and of a cycle whose `pc` fails a check. -/
def Obligations.CycleNetEffect : Prop :=
  ∀ s : State, s.Running → s.Inv →
    (s.Fetchable →
      ∃ t, cycle s = .ok t ∧ step s = .next t ∧ t.fault = none ∧ t.cache = s.cache.setIndex t.pc ∧
        t.device = s.device ∧ t.freeCount = s.freeCount ∧
        match decode (s.cache.wordAt s.pc) with
        | .addi rs1 imm12 _ =>
          t.reg rs1 = s.reg rs1 + imm12.setWidth 32 ∧ (∀ r, r ≠ rs1 → t.reg r = s.reg r) ∧ t.pc = s.pc + 4
        | .jal rd imm19 .forward =>
          t.reg rd = s.pc + 4 ∧ (∀ r, r ≠ rd → t.reg r = s.reg r) ∧ t.pc = s.pc + imm19.setWidth 32 + 4
        | .jal rd imm19 .backward =>
          t.reg rd = s.pc + 4 ∧ (∀ r, r ≠ rd → t.reg r = s.reg r) ∧ t.pc = s.pc - imm19.setWidth 32 + 4
        | .unrecognised _ => (∀ r, t.reg r = s.reg r) ∧ t.pc = s.pc + 4) ∧
    (¬ s.Fetchable →
      ∃ f, cycle s = .ok { s with fault := some f } ∧ step s = .fault f ∧
        f = if s.pc.toNat % 4 ≠ 0 then .misalignedFetch s.pc else if s.pc = 0 then .nullFetch else .cacheMiss s.pc)

/-- R82: `falling` of a running core adds 4 and moves the cursor to the new `pc`, whatever `pc` is, and writes nothing
else; it never sets the latch; on a halted core it does nothing. -/
def Obligations.FallingAddsFourUnconditionally : Prop :=
  ∀ s : State,
    (s.Running →
      (falling s).pc = s.pc + 4 ∧ (falling s).cache = { s.cache with index := s.pc + 4 } ∧
      (∀ r, (falling s).reg r = s.reg r) ∧ (falling s).device = s.device ∧ (falling s).fault = none ∧
      (falling s).freeCount = s.freeCount) ∧
    (¬ s.Running → falling s = s)

/-- What a `rising` that does not fault writes (R81, R21 (d)): the cursor, one register, `pc` for `JAL` only. -/
def Obligations.RisingWritesAtMostOneRegister : Prop :=
  ∀ s t : State, s.Running → s.Inv → rising s = .ok t → t.fault = none →
    t.cache = s.cache.setIndex (if s.pc + 4 = s.cache.top then 0 else s.pc + 4) ∧ t.device = s.device ∧
    t.freeCount = s.freeCount ∧
    (∃ r, ∀ r', r' ≠ r → t.reg r' = s.reg r') ∧
    ((∀ rd imm19 dir, decode (s.cache.wordAt s.pc) ≠ .jal rd imm19 dir) → t.pc = s.pc)

/-- Both phases and the cycle are total (R83, R85, D15): every state has an outcome, and no step is ever refused. -/
def Obligations.PhasesAreTotal : Prop :=
  ∀ s : State, (∃ t, rising s = .ok t) ∧ (∃ t, cycle s = .ok t) ∧ (∀ r, step s ≠ .refused r)

/-- On a cycle boundary, a step answers a next state exactly when the core runs and `pc` passes the fetch checks; it
faults otherwise (R41, R84, R115). -/
def Obligations.StepCompletesExactlyWhenFetchable : Prop :=
  ∀ s : State, s.Inv →
    ((∃ t, step s = .next t) ↔ s.Running ∧ s.Fetchable) ∧
    ((∃ f, step s = .fault f) ↔ ¬ (s.Running ∧ s.Fetchable))

/-- R83: phases out of order. Two `rising` on an `ADDI` add twice, except at the last word of the window, where the second
one misses; two `falling` add 8. -/
def Obligations.RepeatedPhases : Prop :=
  (∀ (s : State) (rs1 : RegIdx) (imm12 : BitVec 12) (rd : RegIdx), s.Executes (.addi rs1 imm12 rd) →
    s.pc.toNat + 4 < s.cache.top.toNat →
    ∃ t u, rising s = .ok t ∧ rising t = .ok u ∧ u.fault = none ∧
      u.reg rs1 = s.reg rs1 + imm12.setWidth 32 + imm12.setWidth 32 ∧ u.pc = s.pc ∧ u.cache.index = s.pc + 4) ∧
  (∀ (s : State) (rs1 : RegIdx) (imm12 : BitVec 12) (rd : RegIdx), s.Executes (.addi rs1 imm12 rd) →
    s.pc.toNat + 4 = s.cache.top.toNat →
    ∃ t, rising s = .ok t ∧ t.fault = none ∧ t.cache.index = 0 ∧
      rising t = .ok { t with fault := some (.cacheMiss s.pc) }) ∧
  (∀ s : State, s.Running → (falling (falling s)).pc = s.pc + 8 ∧ (falling (falling s)).cache.index = s.pc + 8 ∧
    (falling (falling s)).regs = s.regs)

/-! ### Jumps -/

/-- R90: which words are `JAL`; a `JAL` over its whole cycle and into the next `rising`: the link is written, the next
address is `A ± imm19 + 4`, and only then is that address judged. -/
def Obligations.JalTargetIsJudgedAtTheNextRising : Prop :=
  (∀ w : Word, w &&& 0x0000007F = 0x0000006F →
    decode w = .jal (w.extractLsb 11 7).toFin (w.extractLsb 30 12)
      (if w.extractLsb 31 31 = 1#1 then .backward else .forward)) ∧
  ∀ (s : State) (rd : RegIdx) (imm19 : BitVec 19) (dir : Direction), s.Executes (.jal rd imm19 dir) →
    ∃ r t, rising s = .ok r ∧ r.reg rd = s.pc + 4 ∧ (∀ x, x ≠ rd → r.reg x = s.reg x) ∧
      r.pc = (match dir with
        | .forward => s.pc + imm19.setWidth 32
        | .backward => s.pc - imm19.setWidth 32) ∧
      step s = .next t ∧ t.pc = r.pc + 4 ∧ (∀ x, t.reg x = r.reg x) ∧
      (imm19 = 0 → t.pc = s.pc + 4) ∧
      (t.pc.toNat % 4 ≠ 0 ↔ imm19.toNat % 4 ≠ 0) ∧
      (t.pc.toNat % 4 ≠ 0 → rising t = .ok { t with fault := some (.misalignedFetch t.pc) }) ∧
      (t.pc = 0 → rising t = .ok { t with fault := some .nullFetch }) ∧
      (t.pc.toNat % 4 = 0 → t.pc ≠ 0 →
        ¬ (s.cache.bottom.toNat ≤ t.pc.toNat ∧ t.pc.toNat ≤ s.cache.top.toNat - 4) →
        rising t = .ok { t with fault := some (.cacheMiss t.pc) }) ∧
      (t.Fetchable → ∃ u, rising t = .ok u ∧ u.fault = none)

/-- R92: how a `JAL` at `A` reaches an aligned destination `T`, and the link value it leaves. -/
def Obligations.JumpEncodingReachesTheDestination : Prop :=
  ∀ (s : State) (rd : RegIdx) (T : Word) (d : Int), d = (T.toNat : Int) - s.pc.toNat - 4 →
    (0 ≤ d → d ≤ 524287 → s.Executes (.jal rd (BitVec.ofNat 19 d.toNat) .forward) →
      ∃ t, step s = .next t ∧ t.pc = T ∧ t.reg rd = s.pc + 4) ∧
    (-524287 ≤ d → d < 0 → s.Executes (.jal rd (BitVec.ofNat 19 (-d).toNat) .backward) →
      ∃ t, step s = .next t ∧ t.pc = T ∧ t.reg rd = s.pc + 4) ∧
    (s.pc.toNat % 4 = 0 → (T.toNat % 4 = 0 ↔ d % 4 = 0))

/-- R136: an offset that is not a multiple of 4 faults one cycle later, after the link was written. -/
def Obligations.MisalignedJumpFaultsOneCycleLater : Prop :=
  ∀ (s : State) (rd : RegIdx) (imm19 : BitVec 19) (dir : Direction), s.Executes (.jal rd imm19 dir) →
    imm19.toNat % 4 ≠ 0 →
    ∃ t, step s = .next t ∧ t.reg rd = s.pc + 4 ∧ t.pc = jumpValue s.pc imm19 dir + 4 ∧
      step t = .fault (.misalignedFetch t.pc)

/-- R137: only the window executes; running off its end or jumping out of it is a miss at the next `rising`; the tightest
loop runs for ever. -/
def Obligations.ExecutionIsConfinedToTheWindow : Prop :=
  (∀ s t : State, s.Inv → step s = .next t →
    s.cache.bottom.toNat ≤ s.pc.toNat ∧ s.pc.toNat + 4 ≤ s.cache.bottom.toNat + 1024) ∧
  (∀ s : State, s.Running → s.Inv → s.Fetchable → s.pc.toNat + 4 = s.cache.top.toNat →
    (∀ rd imm19 dir, decode (s.cache.wordAt s.pc) ≠ .jal rd imm19 dir) →
    ∃ t, step s = .next t ∧ t.pc = s.cache.top ∧ step t = .fault (.cacheMiss s.cache.top)) ∧
  (∀ (s : State) (rd : RegIdx) (imm19 : BitVec 19) (dir : Direction), s.Executes (.jal rd imm19 dir) →
    ∃ t, step s = .next t ∧
      (t.pc.toNat % 4 = 0 → t.pc ≠ 0 →
        ¬ (s.cache.bottom.toNat ≤ t.pc.toNat ∧ t.pc.toNat + 4 ≤ s.cache.top.toNat) →
        step t = .fault (.cacheMiss t.pc))) ∧
  (∀ (s : State) (rd : RegIdx), s.Executes (.jal rd 4 .backward) →
    (∃ t, step s = .next t ∧ t.pc = s.pc ∧ t.Executes (.jal rd 4 .backward)) ∧ ∀ n, SafeFor n s)

/-! ### Faults -/

/-- R113: which fault a `pc` that fails several checks reports; and `falling` raises none. -/
def Obligations.FetchFaultPriority : Prop :=
  (∀ s : State, s.Running → s.pc.toNat % 4 ≠ 0 → rising s = .ok { s with fault := some (.misalignedFetch s.pc) }) ∧
  (∀ s : State, s.Running → s.pc = 0 → rising s = .ok { s with fault := some .nullFetch }) ∧
  (∀ s : State, s.Running → s.pc.toNat % 4 = 0 → s.pc ≠ 0 →
    ¬ (s.cache.bottom.toNat ≤ s.pc.toNat ∧ s.pc.toNat + 4 ≤ s.cache.top.toNat) →
    rising s = .ok { s with fault := some (.cacheMiss s.pc) }) ∧
  (∀ s : State, (falling s).fault = s.fault)

/-- R114: a raise is precise: the latch, set to the fault the fetch reports, is the only thing a faulting `rising` changes,
and the `falling` of that cycle does nothing. -/
def Obligations.RaiseChangesOnlyTheLatch : Prop :=
  ∀ s t : State, s.Running → rising s = .ok t → t.fault ≠ none →
    ∃ f, cacheFetch s.cache s.pc = .error f ∧ t = { s with fault := some f } ∧ falling t = t

/-- R115: a halted core does nothing, stays readable and keeps its first fault under every operation of the host but a new
construction, and no step from it ever answers a next state. How a step reports a halted core is log 7 (DEDUCED) and the
reply of a construction is log 8 (DESIGN CHOICE), the model's own. -/
def Obligations.HaltedCoreDoesNothing : Prop :=
  ∀ (s : State) (f : Fault), s.fault = some f →
    rising s = .ok s ∧ falling s = s ∧ step s = .fault f ∧
    hostApply .observe s = .ok (s, .observation s.observe) ∧
    (∀ (op : HostOp) (t : State) (reply : HostReply), op.isConstruct = false → hostApply op s = .ok (t, reply) →
      t.fault = some f) ∧
    (∀ (pcReset spReset : Word) (spIndex : Nat), s.device.HoldsWindow pcReset →
      configViolation s.device.baseAddress s.device.length pcReset spIndex = none →
      ∃ t, hostApply (.construct pcReset spReset spIndex) s = .ok (t, .done) ∧ t.fault = none)

/-! ### The instruction cache -/

/-- R41, R42: `fetch` in the order of its six checks, on a placed window; the word is the little-endian one of the four
bytes. -/
def Obligations.FetchFollowsTheSixChecks : Prop :=
  ∀ (c : InstructionCache) (location : Word), c.Placed →
    let o := location.toNat - c.bottom.toNat
    let inside := c.bottom.toNat ≤ location.toNat ∧ location.toNat + 4 ≤ c.top.toNat
    let word : Word := c.window.readByte (o + 3) ++ c.window.readByte (o + 2) ++ c.window.readByte (o + 1) ++
      c.window.readByte o
    (location.toNat % 4 ≠ 0 → cacheFetch c location = .error (.misalignedFetch location)) ∧
    (location = 0 → cacheFetch c location = .error .nullFetch) ∧
    (location.toNat % 4 = 0 → location ≠ 0 → ¬ inside → cacheFetch c location = .error (.cacheMiss location)) ∧
    (location.toNat % 4 = 0 → location ≠ 0 → inside → location = c.index →
      cacheFetch c location =
        .ok (word, { c with index := if location + 4 = c.top then 0 else location + 4 })) ∧
    (location.toNat % 4 = 0 → location ≠ 0 → inside → location ≠ c.index → location.toNat < c.top.toNat - 4 →
      cacheFetch c location = .ok (word, { c with index := location + 4 })) ∧
    (location.toNat % 4 = 0 → location ≠ 0 → inside → location ≠ c.index → location.toNat = c.top.toNat - 4 →
      cacheFetch c location = .error (.cacheMiss location))

/-- R44: fast and slow path return the same word and leave the same cursor: below `top - 4` the cursor the fetch starts
from does not matter. -/
def Obligations.FastAndSlowPathAgree : Prop :=
  ∀ (c : InstructionCache) (a b location : Word), c.Placed → location.toNat < c.top.toNat - 4 →
    cacheFetch (c.setIndex a) location = cacheFetch (c.setIndex b) location

/-- R46: the last word of the window off the cursor is a miss; a running core on a cycle boundary never meets that. -/
def Obligations.LastWordOffTheCursorMisses : Prop :=
  (∀ (c : InstructionCache) (location : Word), location.toNat % 4 = 0 → location.toNat = c.top.toNat - 4 →
    location ≠ 0 → location ≠ c.index → cacheFetch c location = .error (.cacheMiss location)) ∧
  (∀ s : State, s.Running → s.Inv → s.pc.toNat % 4 = 0 → s.pc ≠ 0 → s.pc.toNat = s.cache.top.toNat - 4 →
    ∃ t, rising s = .ok t ∧ t.fault = none)

/-- R48: on a cycle boundary the cursor is never decisive for the Hart: its fetch is checks 1 to 3, then the window word
at `pc`. -/
def Obligations.CursorIsNeverDecisiveForTheHart : Prop :=
  ∀ s : State, s.Inv →
    (s.Fetchable → ∃ x, cacheFetch s.cache s.pc = .ok (s.cache.wordAt s.pc, s.cache.setIndex x)) ∧
    (¬ s.Fetchable → ∃ f, cacheFetch s.cache s.pc = .error f)

/-- R43 and RPOC §8 (T3): after `load`, fetches at consecutive addresses hit for the whole window, return what the
MemoryDevice's `read` returns, and the 256th leaves the sentinel 0 in the cursor. -/
def Obligations.SequentialFetchesMatchMemoryReads : Prop :=
  ∀ (free : Nat) (target : Word) (d : MemoryDevice), d.HoldsWindow target → target.toNat + 1024 < 2 ^ 32 →
    target.toNat % 4 = 0 → target ≠ 0 →
    ∀ n, n ≤ 256 →
      ∃ ws c, fetchRun (loadCache free target d).cache target n = .ok (ws, c) ∧ ws.length = n ∧
        (∀ k (h : k < ws.length), d.read (target + BitVec.ofNat 32 (4 * k)) = .ok ws[k]) ∧
        c.index = if n = 256 then 0 else target + BitVec.ofNat 32 (4 * n)

/-! ### The MemoryDevice -/

/-- R32: the bounds check is exact over the unbounded naturals; a device shorter than a word has no valid address, and an
access that would pass `2^32` is out of bounds on every device that fits the address space. -/
def Obligations.BoundsCheckIsExact : Prop :=
  ∀ (d : MemoryDevice) (a v : Word),
    ((∃ w, d.read a = .ok w) ↔
      d.baseAddress.toNat ≤ a.toNat ∧ a.toNat + 4 ≤ d.baseAddress.toNat + d.length.toNat) ∧
    ((∃ d', d.write a v = .ok d') ↔
      d.baseAddress.toNat ≤ a.toNat ∧ a.toNat + 4 ≤ d.baseAddress.toNat + d.length.toNat) ∧
    ((∀ w, d.read a ≠ .ok w) → d.read a = .error ⟨a⟩ ∧ d.write a v = .error ⟨a⟩) ∧
    (d.length.toNat < 4 → d.read a = .error ⟨a⟩) ∧
    (d.endAddress ≤ 2 ^ 32 → 2 ^ 32 < a.toNat + 4 → d.read a = .error ⟨a⟩)

/-- R30, R33: a `read` in bounds, at any alignment, gives the little-endian word of its four bytes; out of bounds it gives
the error with its address; it changes no state. -/
def Obligations.ReadIsLittleEndian : Prop :=
  (∀ (d : MemoryDevice) (a : Word),
    (d.inBounds a = true →
      ∃ w : Word, d.read a = .ok w ∧
        w = d.byteAt (a.toNat + 3) ++ d.byteAt (a.toNat + 2) ++ d.byteAt (a.toNat + 1) ++ d.byteAt a.toNat) ∧
    (d.inBounds a = false → d.read a = .error ⟨a⟩)) ∧
  (∀ (s : State) (a : Word), ∃ reply, hostApply (.read a) s = .ok (s, reply))

/-- R31, R33: a `write` in bounds, at any alignment, stores the four bytes of the value, least significant first, and
leaves every other byte, the base and the length alone; out of bounds it fails as `read` does, and the host's device stays. -/
def Obligations.WriteStoresFourBytesAndNoOther : Prop :=
  (∀ (d : MemoryDevice) (a v : Word), d.wf = true → d.inBounds a = true →
    ∃ d', d.write a v = .ok d' ∧ d'.baseAddress = d.baseAddress ∧ d'.length = d.length ∧
      d'.byteAt a.toNat = v.extractLsb 7 0 ∧ d'.byteAt (a.toNat + 1) = v.extractLsb 15 8 ∧
      d'.byteAt (a.toNat + 2) = v.extractLsb 23 16 ∧ d'.byteAt (a.toNat + 3) = v.extractLsb 31 24 ∧
      (∀ x, x < a.toNat ∨ a.toNat + 4 ≤ x → d'.byteAt x = d.byteAt x)) ∧
  (∀ (s : State) (a v : Word), s.device.inBounds a = false →
    s.device.write a v = .error ⟨a⟩ ∧ s.device.read a = .error ⟨a⟩ ∧
    hostApply (.write a v) s = .ok (s, .outOfBounds a)) ∧
  (∀ (s : State) (a v : Word) (d : MemoryDevice), s.device.write a v = .ok d →
    hostApply (.write a v) s = .ok (s.setDevice d, .done))

/-- R36: `write(a, v)` followed by `read(a)` returns `v`; and a `read` at any valid address returns, for each of its four
bytes, the byte written last or else the byte that was there. -/
def Obligations.ReadAfterWriteReturnsTheValue : Prop :=
  ∀ (d : MemoryDevice) (a v : Word), d.wf = true → d.inBounds a = true →
    ∃ d', d.write a v = .ok d' ∧ d'.read a = .ok v ∧
      ∀ b : Word, d.inBounds b = true →
        ∃ w, d'.read b = .ok w ∧ ∀ k, k < 4 →
          byteOfWord w k =
            if a.toNat ≤ b.toNat + k ∧ b.toNat + k < a.toNat + 4 then byteOfWord v (b.toNat + k - a.toNat)
            else d.byteAt (b.toNat + k)

/-- R37: a `write` is idempotent, as data; a host `read` changes nothing, so it may be repeated freely. -/
def Obligations.WriteIsIdempotent : Prop :=
  (∀ (d d' : MemoryDevice) (a v : Word), d.wf = true → d.write a v = .ok d' → d'.write a v = .ok d') ∧
  (∀ (s t : State) (a : Word) (reply : HostReply), hostApply (.read a) s = .ok (t, reply) →
    t = s ∧ hostApply (.read a) t = .ok (t, reply))

/-- Two canonical memories that read alike are the same data; every write of the device and its creation keep the form. -/
def Obligations.CanonicalMemoriesAreEqualData : Prop :=
  (∀ m m' : Memory, m.wf = true → m'.wf = true → (∀ a, m.readByte a = m'.readByte a) → m = m') ∧
  (∀ (d d' : MemoryDevice) (a v : Word), d.wf = true → d.write a v = .ok d' → d'.wf = true) ∧
  (∀ (base length : Word) (init : List Host.Cell), (MemoryDevice.create base length init).wf = true)

/-- R55, R101: no phase and no step touches the MemoryDevice, and none depends on it. -/
def Obligations.TheHartNeverTouchesTheDevice : Prop :=
  (∀ s t : State, rising s = .ok t → t.device = s.device) ∧
  (∀ s : State, (falling s).device = s.device) ∧
  (∀ s t : State, step s = .next t → t.device = s.device ∧ ∀ a, t.device.byteAt a = s.device.byteAt a) ∧
  (∀ (s t : State) (d : MemoryDevice), step s = .next t → step (s.setDevice d) = .next (t.setDevice d)) ∧
  (∀ (s : State) (f : Fault) (d : MemoryDevice), step s = .fault f → step (s.setDevice d) = .fault f)

/-! ### Reset -/

/-- R27: the state right after a reset that succeeds, for every value of the parameters. -/
def Obligations.ResetValues : Prop :=
  (∀ (free : Nat) (pcReset spReset : Word) (spIndex : Nat) (d : MemoryDevice),
    configViolation d.baseAddress d.length pcReset spIndex = none → d.HoldsWindow pcReset →
    let s := State.construct free pcReset spReset spIndex d
    (∀ i : RegIdx, s.reg i = if i.val = spIndex then spReset else 0) ∧ s.pc = pcReset ∧ s.cache.bottom = pcReset ∧
      s.cache.top.toNat = pcReset.toNat + 1024 ∧ s.cache.index = pcReset ∧
      (∀ j, j < 1024 → s.cache.window.readByte j = d.byteAt (pcReset.toNat + j)) ∧ s.fault = none ∧ s.device = d) ∧
  (∀ c : Config, (State.ofConfig c).device.baseAddress = c.memBase ∧ (State.ofConfig c).device.length = c.memLength) ∧
  (∀ c : Config, 32 ≤ c.spIndex → ∃ v, constructCore c = .refused (.refusedConfiguration v))

/-- R28: a reset whose window does not fit latches `OutOfBounds` with the first word address whose read failed; the rest
is as after any reset, and the core is halted from the start. -/
def Obligations.ResetThatDoesNotFitHalts : Prop :=
  ∀ (free : Nat) (pcReset spReset : Word) (spIndex : Nat) (d : MemoryDevice),
    configViolation d.baseAddress d.length pcReset spIndex = none → ¬ d.HoldsWindow pcReset →
    let s := State.construct free pcReset spReset spIndex d
    ∃ k, k < 256 ∧ s.fault = some (.outOfBounds (pcReset + BitVec.ofNat 32 (4 * k))) ∧
      d.inBounds (pcReset + BitVec.ofNat 32 (4 * k)) = false ∧
      (∀ j, j < k → d.inBounds (pcReset + BitVec.ofNat 32 (4 * j)) = true) ∧
      (∀ i : RegIdx, s.reg i = if i.val = spIndex then spReset else 0) ∧ s.pc = pcReset ∧ s.cache.bottom = pcReset ∧
      s.cache.top.toNat = pcReset.toNat + 1024 ∧ s.cache.index = pcReset ∧ s.device = d ∧
      rising s = .ok s ∧ falling s = s

/-- R131: reset does not validate `PC_RESET`; a bad one shows at the first `rising` or in the load. -/
def Obligations.ResetDoesNotValidateThePc : Prop :=
  ∀ (free : Nat) (pcReset spReset : Word) (spIndex : Nat) (d : MemoryDevice),
    let s := State.construct free pcReset spReset spIndex d
    (configViolation d.baseAddress d.length pcReset spIndex = none →
      (d.HoldsWindow pcReset → pcReset = 0 → s.fault = none ∧ step s = .fault .nullFetch) ∧
      (d.HoldsWindow pcReset → pcReset.toNat % 4 ≠ 0 →
        s.fault = none ∧ step s = .fault (.misalignedFetch pcReset) ∧
        ∀ j, j < 1024 → s.cache.window.readByte j = d.byteAt (pcReset.toNat + j)) ∧
      (¬ d.HoldsWindow pcReset → ∃ a, s.fault = some (.outOfBounds a))) ∧
    (∀ t : State, t.device = d →
      (2 ^ 32 < d.baseAddress.toNat + d.length.toNat ∨ 2 ^ 32 ≤ pcReset.toNat + 1024) →
      ∃ v, hostApply (.construct pcReset spReset spIndex) t = .error (.refusedConfiguration v))

/-- R6, U16: constructing a core is refused exactly when a constraint of R6 is violated. -/
def Obligations.RefusedConfigurationsAreExactlyTheViolations : Prop :=
  ∀ c : Config,
    (∃ v, constructCore c = .refused (.refusedConfiguration v)) ↔
      2 ^ 32 < c.memBase.toNat + c.memLength.toNat ∨ 2 ^ 32 ≤ c.pcReset.toNat + 1024 ∨ 32 ≤ c.spIndex

/-- The reset state of `Host.Core` (the parameter values are the model's choice, log 1): the core of 95_test_vectors'
default configuration. -/
def Obligations.StandardResetState : Prop :=
  State.reset.pc = 0x20000000 ∧ State.reset.cache.bottom = 0x20000000 ∧ State.reset.cache.top = 0x20000400 ∧
  State.reset.cache.index = 0x20000000 ∧ State.reset.cache.window = [] ∧ State.reset.fault = none ∧
  (∀ r : RegIdx, State.reset.reg r = 0) ∧ State.reset.device = ⟨0x20000000, 4096, []⟩ ∧
  constructCore Config.standard = .next State.reset

/-! ### Invariants -/

/-- The reset state meets the invariant of a cycle boundary. -/
def Obligations.ResetMeetsTheInvariant : Prop := State.reset.Inv

/-- So does every core that is constructed from a configuration R6 does not refuse, whether or not its load faulted. -/
def Obligations.EveryConstructionMeetsTheInvariant : Prop :=
  ∀ c : Config, configViolation c.memBase c.memLength c.pcReset c.spIndex = none → (State.ofConfig c).Inv

/-- R21 (a), (c): every step that answers a next state keeps the invariant of a cycle boundary: the window stays placed
where reset put it and its buffer canonical, the cursor equals `pc`, the device stays canonical. -/
def Obligations.EveryStepKeepsTheInvariant : Prop :=
  ∀ s t : State, s.Inv → step s = .next t →
    t.Inv ∧ t.Running ∧ t.cache.bottom = s.cache.bottom ∧ t.cache.top = s.cache.top

/-! ### The host -/

/-- R86: observation gives the host every register, `pc`, the cache and the latch, and changes nothing. -/
def Obligations.ObservationChangesNothing : Prop :=
  ∀ s : State, ∃ o, hostApply .observe s = .ok (s, .observation o) ∧ o.regs = s.regs ∧ o.pc = s.pc ∧
    o.bottom = s.cache.bottom ∧ o.top = s.cache.top ∧ o.index = s.cache.index ∧ o.window = s.cache.window ∧
    o.fault = s.fault

/-- R112: the host's own failed access is an error result to the host: the latch and every byte stay. -/
def Obligations.HostAccessErrorsAreTheHostsOwn : Prop :=
  ∀ (s : State) (a v : Word), s.device.inBounds a = false →
    hostApply (.read a) s = .ok (s, .outOfBounds a) ∧ hostApply (.write a v) s = .ok (s, .outOfBounds a)

/-- R20, R23, R49: over every sequence of host operations with no new construction, the window, its bounds and the
device's base and length are what they were. -/
def Obligations.TheWindowIsFrozenUntilTheNextConstruction : Prop :=
  ∀ (ops : List HostOp) (s t : State), (∀ op ∈ ops, op.isConstruct = false) → hostRun ops s = .ok t →
    t.cache.window = s.cache.window ∧ t.cache.bottom = s.cache.bottom ∧ t.cache.top = s.cache.top ∧
    t.device.baseAddress = s.device.baseAddress ∧ t.device.length = s.device.length

/-- R49, R133 (d), D18: host writes after construction are invisible to the Hart: leaving them all out of a sequence of
operations gives the same registers, `pc`, cache and latch. -/
def Obligations.HostWritesAreInvisibleToTheHart : Prop :=
  ∀ (ops : List HostOp) (s t : State), (∀ op ∈ ops, op.isConstruct = false) → hostRun ops s = .ok t →
    ∃ u, hostRun (ops.filter fun op => !op.isWrite) s = .ok u ∧ u.setDevice t.device = t ∧ u.device = s.device
end

