-- ==== Sys2Proof/Laws/Memory.lean ====
section
/-! SUPPORT. The laws of the byte store: read after write, the frame of a write, the canonical form kept, and equal reads
make equal memories; then the same for words and for the device. -/

namespace Sys2Proof.Machine

theorem Memory.readByte_eq_unlisted_of_lt {lo a : Nat} {m : Memory} (h : m.wfFrom lo = true) (ha : a < lo) :
    m.readByte a = unlistedByte := by
  induction m generalizing lo with
  | nil => rfl
  | cons c rest ih =>
    obtain ⟨k, v⟩ := c
    simp only [Memory.wfFrom, Bool.and_eq_true, decide_eq_true_eq] at h
    have hne : k ≠ a := by omega
    simpa [Memory.readByte, hne] using ih h.2 (by omega)

theorem Memory.wfFrom_mono {lo lo' : Nat} {m : Memory} (h : m.wfFrom lo = true) (hl : lo' ≤ lo) :
    m.wfFrom lo' = true := by
  cases m with
  | nil => rfl
  | cons c rest =>
    simp only [Memory.wfFrom, Bool.and_eq_true, decide_eq_true_eq] at h ⊢
    exact ⟨⟨by omega, h.1.2⟩, h.2⟩

/-- A write at or past `lo` keeps the canonical form from `lo` on. -/
theorem Memory.writeByte_wfFrom {lo a : Nat} {m : Memory} (h : m.wfFrom lo = true) (ha : lo ≤ a) (b : Byte) :
    (m.writeByte a b).wfFrom lo = true := by
  induction m generalizing lo with
  | nil =>
    by_cases hb : b = unlistedByte <;> simp [Memory.writeByte, Memory.wfFrom, hb, ha]
  | cons c rest ih =>
    obtain ⟨k, v⟩ := c
    simp only [Memory.wfFrom, Bool.and_eq_true, decide_eq_true_eq] at h
    obtain ⟨⟨hk, hv⟩, hr⟩ := h
    unfold Memory.writeByte
    split
    · split <;> simp_all [Memory.wfFrom]
    · split
      · split
        · exact Memory.wfFrom_mono hr (by omega)
        · simp_all [Memory.wfFrom]
      · simp only [Memory.wfFrom, Bool.and_eq_true, decide_eq_true_eq]
        exact ⟨⟨hk, hv⟩, ih hr (by omega)⟩

/-- A write keeps the canonical form. -/
theorem Memory.writeByte_wf {m : Memory} (h : m.wf = true) (a : Nat) (b : Byte) : (m.writeByte a b).wf = true :=
  Memory.writeByte_wfFrom h (Nat.zero_le a) b

/-- A byte reads back what was written to it. -/
theorem Memory.readByte_writeByte_same {lo a : Nat} {m : Memory} (h : m.wfFrom lo = true) (b : Byte) :
    (m.writeByte a b).readByte a = b := by
  induction m generalizing lo with
  | nil => by_cases hb : b = unlistedByte <;> simp [Memory.writeByte, Memory.readByte, hb]
  | cons c rest ih =>
    obtain ⟨k, v⟩ := c
    simp only [Memory.wfFrom, Bool.and_eq_true, decide_eq_true_eq] at h
    unfold Memory.writeByte
    split
    · split
      · have hne : k ≠ a := by omega
        simp_all [Memory.readByte]
        exact Memory.readByte_eq_unlisted_of_lt h.2 (by omega)
      · simp [Memory.readByte]
    · split
      · subst_vars
        split
        · subst_vars
          exact Memory.readByte_eq_unlisted_of_lt h.2 (by omega)
        · simp [Memory.readByte]
      · have hne : k ≠ a := by omega
        simpa [Memory.readByte, hne] using ih h.2

/-- Every other byte reads as before. -/
theorem Memory.readByte_writeByte_other {a a' : Nat} (m : Memory) (h : a' ≠ a) (b : Byte) :
    (m.writeByte a b).readByte a' = m.readByte a' := by
  induction m with
  | nil => by_cases hb : b = unlistedByte <;> simp [Memory.writeByte, Memory.readByte, hb, Ne.symm h]
  | cons c rest ih =>
    obtain ⟨k, v⟩ := c
    unfold Memory.writeByte
    split
    · split <;> simp [Memory.readByte, Ne.symm h]
    · split
      · subst_vars
        split <;> simp [Memory.readByte, Ne.symm h]
      · simp [Memory.readByte, ih]

/-- The byte at `a'` after a write at `a`. -/
theorem Memory.readByte_writeByte {m : Memory} (h : m.wf = true) (a a' : Nat) (b : Byte) :
    (m.writeByte a b).readByte a' = if a' = a then b else m.readByte a' := by
  split
  · subst_vars; exact Memory.readByte_writeByte_same h b
  · exact Memory.readByte_writeByte_other m ‹_› b

theorem Memory.ext_from {lo : Nat} {m m' : Memory} (h : m.wfFrom lo = true) (h' : m'.wfFrom lo = true)
    (he : ∀ a, m.readByte a = m'.readByte a) : m = m' := by
  induction m generalizing lo m' with
  | nil =>
    cases m' with
    | nil => rfl
    | cons c rest =>
      obtain ⟨k, v⟩ := c
      simp only [Memory.wfFrom, Bool.and_eq_true, decide_eq_true_eq] at h'
      exact absurd (by simpa [Memory.readByte] using (he k).symm) h'.1.2
  | cons c rest ih =>
    obtain ⟨k, v⟩ := c
    simp only [Memory.wfFrom, Bool.and_eq_true, decide_eq_true_eq] at h
    cases m' with
    | nil => exact absurd (by simpa [Memory.readByte] using he k) h.1.2
    | cons c' rest' =>
      obtain ⟨k', v'⟩ := c'
      simp only [Memory.wfFrom, Bool.and_eq_true, decide_eq_true_eq] at h'
      have hk : k = k' := by
        rcases Nat.lt_trichotomy k k' with hlt | heq | hgt
        · have := he k
          simp only [Memory.readByte, if_true, if_neg (show ¬ k' = k by omega)] at this
          rw [Memory.readByte_eq_unlisted_of_lt h'.2 (by omega)] at this
          exact absurd this h.1.2
        · exact heq
        · have := he k'
          simp only [Memory.readByte, if_true, if_neg (show ¬ k = k' by omega)] at this
          rw [Memory.readByte_eq_unlisted_of_lt h.2 (by omega)] at this
          exact absurd this.symm h'.1.2
      subst hk
      have hv : v = v' := by simpa [Memory.readByte] using he k
      subst hv
      have hr : rest = rest' := by
        refine ih h.2 h'.2 fun a => ?_
        by_cases ha : k = a
        · subst ha
          rw [Memory.readByte_eq_unlisted_of_lt h.2 (by omega), Memory.readByte_eq_unlisted_of_lt h'.2 (by omega)]
        · simpa [Memory.readByte, ha] using he a
      rw [hr]

/-- Two canonical memories that read alike are equal data. -/
theorem Memory.ext_of_wf {m m' : Memory} (h : m.wf = true) (h' : m'.wf = true)
    (he : ∀ a, m.readByte a = m'.readByte a) : m = m' := Memory.ext_from h h' he

/-! ### Where cells may be listed -/

theorem Memory.writeByte_mem {m : Memory} {a : Nat} {b : Byte} {c : Host.Cell} (h : c ∈ m.writeByte a b) :
    c ∈ m ∨ c = (a, b) := by
  induction m with
  | nil =>
    unfold Memory.writeByte at h
    split at h <;> simp_all
  | cons c' rest ih =>
    obtain ⟨k, v⟩ := c'
    unfold Memory.writeByte at h
    split at h
    · split at h <;> simp_all
      tauto
    · split at h
      · split at h <;> simp_all
        tauto
      · rcases List.mem_cons.mp h with h | h
        · exact .inl (by simp [h])
        · rcases ih h with h | h
          · exact .inl (List.mem_cons_of_mem _ h)
          · exact .inr h

/-- A write inside `[lo, hi)` lists nothing outside it. -/
theorem Memory.writeByte_within {lo hi a : Nat} {m : Memory} (h : m.within lo hi = true) (h1 : lo ≤ a) (h2 : a < hi)
    (b : Byte) : (m.writeByte a b).within lo hi = true := by
  simp only [Memory.within, List.all_eq_true, Bool.and_eq_true, decide_eq_true_eq] at h ⊢
  intro c hc
  rcases Memory.writeByte_mem hc with hc | rfl
  · exact h c hc
  · exact ⟨h1, h2⟩

/-! ### Words -/

/-- A word is made of its own bytes. -/
theorem wordOfBytes_byteOfWord (v : Word) :
    wordOfBytes (byteOfWord v 0) (byteOfWord v 1) (byteOfWord v 2) (byteOfWord v 3) = v := by
  unfold wordOfBytes byteOfWord
  refine BitVec.eq_of_getLsbD_eq fun i hi => ?_
  simp only [BitVec.getLsbD_append, BitVec.getLsbD_extractLsb']
  by_cases h0 : i < 8
  · simp [h0]
  by_cases h1 : i - 8 < 8
  · have e : 8 * 1 + (i - 8) = i := by omega
    simp [h0, h1, e]
  by_cases h2 : i - (8 + 8) < 8
  · have e : 8 * 2 + (i - (8 + 8)) = i := by omega
    simp [h0, h1, h2, e, Nat.sub_sub]
  · have h3 : i - (8 + (8 + 8)) < 8 := by omega
    have e : 8 * 3 + (i - (8 + (8 + 8))) = i := by omega
    simp [h0, h1, h2, h3, e, Nat.sub_sub]

/-- Byte `k` of the word that four bytes make is the `k`-th of them. -/
theorem byteOfWord_wordOfBytes (b0 b1 b2 b3 : Byte) :
    byteOfWord (wordOfBytes b0 b1 b2 b3) 0 = b0 ∧ byteOfWord (wordOfBytes b0 b1 b2 b3) 1 = b1 ∧
      byteOfWord (wordOfBytes b0 b1 b2 b3) 2 = b2 ∧ byteOfWord (wordOfBytes b0 b1 b2 b3) 3 = b3 := by
  refine ⟨?_, ?_, ?_, ?_⟩ <;> refine BitVec.eq_of_getLsbD_eq fun i hi => ?_ <;>
    unfold byteOfWord wordOfBytes <;> rw [BitVec.getLsbD_extractLsb'] <;> simp only [BitVec.getLsbD_append] <;>
    interval_cases i <;> rfl

/-- Byte `k` of a word read at `a` is the byte at `a + k`. -/
theorem byteOfWord_readWord (m : Memory) (a : Nat) {k : Nat} (hk : k < 4) :
    byteOfWord (m.readWord a) k = m.readByte (a + k) := by
  have h := byteOfWord_wordOfBytes (m.readByte a) (m.readByte (a + 1)) (m.readByte (a + 2)) (m.readByte (a + 3))
  have : k = 0 ∨ k = 1 ∨ k = 2 ∨ k = 3 := by omega
  rcases this with rfl | rfl | rfl | rfl
  · exact h.1
  · exact h.2.1
  · exact h.2.2.1
  · exact h.2.2.2

theorem Memory.writeWord_wf {m : Memory} (h : m.wf = true) (a : Nat) (v : Word) : (m.writeWord a v).wf = true :=
  Memory.writeByte_wf (Memory.writeByte_wf (Memory.writeByte_wf (Memory.writeByte_wf h _ _) _ _) _ _) _ _

theorem Memory.writeWord_within {lo hi a : Nat} {m : Memory} (h : m.within lo hi = true) (h1 : lo ≤ a)
    (h2 : a + 4 ≤ hi) (v : Word) : (m.writeWord a v).within lo hi = true :=
  Memory.writeByte_within (Memory.writeByte_within (Memory.writeByte_within (Memory.writeByte_within h
    (by omega) (by omega) _) (by omega) (by omega) _) (by omega) (by omega) _) (by omega) (by omega) _

/-- Byte `a + k` after a word store at `a` is byte `k` of the word. -/
theorem Memory.readByte_writeWord_same {m : Memory} (h : m.wf = true) (a : Nat) (v : Word) {k : Nat} (hk : k < 4) :
    (m.writeWord a v).readByte (a + k) = byteOfWord v k := by
  have h1 := Memory.writeByte_wf h a (byteOfWord v 0)
  have h2 := Memory.writeByte_wf h1 (a + 1) (byteOfWord v 1)
  have h3 := Memory.writeByte_wf h2 (a + 2) (byteOfWord v 2)
  unfold Memory.writeWord
  rw [Memory.readByte_writeByte h3, Memory.readByte_writeByte h2, Memory.readByte_writeByte h1,
    Memory.readByte_writeByte h]
  have : k = 0 ∨ k = 1 ∨ k = 2 ∨ k = 3 := by omega
  rcases this with rfl | rfl | rfl | rfl <;> simp

/-- A word store at `a` leaves every byte outside `a .. a+3` alone. -/
theorem Memory.readByte_writeWord_other (m : Memory) (a : Nat) (v : Word) {a' : Nat} (h : a' < a ∨ a + 4 ≤ a') :
    (m.writeWord a v).readByte a' = m.readByte a' := by
  unfold Memory.writeWord
  rw [Memory.readByte_writeByte_other _ (by omega), Memory.readByte_writeByte_other _ (by omega),
    Memory.readByte_writeByte_other _ (by omega), Memory.readByte_writeByte_other _ (by omega)]

/-- A word reads back what was stored. -/
theorem Memory.readWord_writeWord {m : Memory} (h : m.wf = true) (a : Nat) (v : Word) :
    (m.writeWord a v).readWord a = v := by
  have h0 := Memory.readByte_writeWord_same h a v (k := 0) (by omega)
  rw [Nat.add_zero] at h0
  unfold Memory.readWord
  rw [h0, Memory.readByte_writeWord_same h a v (by omega), Memory.readByte_writeWord_same h a v (by omega),
    Memory.readByte_writeWord_same h a v (by omega), wordOfBytes_byteOfWord]

/-! ### The device -/

/-- The bounds check, in the words of R32. -/
theorem MemoryDevice.inBounds_iff (d : MemoryDevice) (a : Word) :
    d.inBounds a = true ↔ d.baseAddress.toNat ≤ a.toNat ∧ a.toNat + 4 ≤ d.endAddress := by
  simp [MemoryDevice.inBounds]

/-- What a `read` can answer. -/
theorem MemoryDevice.read_of_inBounds {d : MemoryDevice} {a : Word} (h : d.inBounds a = true) :
    d.read a = .ok (d.bytes.readWord a.toNat) := by simp [MemoryDevice.read, h]

theorem MemoryDevice.read_of_outOfBounds {d : MemoryDevice} {a : Word} (h : d.inBounds a = false) :
    d.read a = .error { address := a } := by simp [MemoryDevice.read, h]

/-- What a `write` can answer: everything but the four bytes stays, and the access was in bounds. -/
theorem MemoryDevice.write_cases {d d' : MemoryDevice} {a v : Word} (h : d.write a v = .ok d') :
    d.inBounds a = true ∧ d' = { d with bytes := d.bytes.writeWord a.toNat v } := by
  unfold MemoryDevice.write at h
  split at h
  · injection h with h; exact ⟨‹_›, h.symm⟩
  · cases h

/-- A `write` keeps the device's base, length and canonical form. -/
theorem MemoryDevice.write_wf {d d' : MemoryDevice} {a v : Word} (hd : d.wf = true) (h : d.write a v = .ok d') :
    d'.baseAddress = d.baseAddress ∧ d'.length = d.length ∧ d'.wf = true := by
  obtain ⟨hb, rfl⟩ := MemoryDevice.write_cases h
  rw [MemoryDevice.inBounds_iff] at hb
  simp only [MemoryDevice.wf, Bool.and_eq_true] at hd
  refine ⟨rfl, rfl, ?_⟩
  simp only [MemoryDevice.wf, Bool.and_eq_true]
  exact ⟨Memory.writeWord_wf hd.1 _ _, Memory.writeWord_within hd.2 hb.1 hb.2 _⟩

theorem Memory.ofCells_wf (lo hi : Nat) (cells : List Host.Cell) {m : Memory} (h : m.wf = true)
    (hw : m.within lo hi = true) :
    (Memory.ofCells lo hi cells m).wf = true ∧ (Memory.ofCells lo hi cells m).within lo hi = true := by
  induction cells generalizing m with
  | nil => exact ⟨h, hw⟩
  | cons c rest ih =>
    obtain ⟨a, b⟩ := c
    unfold Memory.ofCells
    split
    · exact ih (Memory.writeByte_wf h _ _) (Memory.writeByte_within hw (by omega) (by omega) _)
    · exact ih h hw

/-- A created device is in canonical form, whatever it is created with. -/
theorem MemoryDevice.create_wf (base length : Word) (init : List Host.Cell) :
    (MemoryDevice.create base length init).wf = true := by
  have := Memory.ofCells_wf base.toNat (base.toNat + length.toNat) init (m := []) rfl rfl
  simpa [MemoryDevice.wf, MemoryDevice.create, MemoryDevice.endAddress] using this

end Sys2Proof.Machine
end

