-- ==== Sys2Proof/Laws/State.lean ====
section
/-! SUPPORT. One lemma per field of State and per update of it, all true by rfl; and the register file's two laws. -/

namespace Sys2Proof.Machine

variable (s : State)

@[simp] theorem State.setReg_pc (i : RegIdx) (v : Word) : (s.setReg i v).pc = s.pc := rfl
@[simp] theorem State.setReg_cache (i : RegIdx) (v : Word) : (s.setReg i v).cache = s.cache := rfl
@[simp] theorem State.setReg_device (i : RegIdx) (v : Word) : (s.setReg i v).device = s.device := rfl
@[simp] theorem State.setReg_fault (i : RegIdx) (v : Word) : (s.setReg i v).fault = s.fault := rfl
@[simp] theorem State.setReg_freeCount (i : RegIdx) (v : Word) : (s.setReg i v).freeCount = s.freeCount := rfl

@[simp] theorem State.setPc_pc (t : Word) : (s.setPc t).pc = t := rfl
@[simp] theorem State.setPc_regs (t : Word) : (s.setPc t).regs = s.regs := rfl
@[simp] theorem State.setPc_reg (t : Word) (i : RegIdx) : (s.setPc t).reg i = s.reg i := rfl
@[simp] theorem State.setPc_cache (t : Word) : (s.setPc t).cache = s.cache := rfl
@[simp] theorem State.setPc_device (t : Word) : (s.setPc t).device = s.device := rfl
@[simp] theorem State.setPc_fault (t : Word) : (s.setPc t).fault = s.fault := rfl
@[simp] theorem State.setPc_freeCount (t : Word) : (s.setPc t).freeCount = s.freeCount := rfl

@[simp] theorem State.setCache_cache (c : InstructionCache) : (s.setCache c).cache = c := rfl
@[simp] theorem State.setCache_pc (c : InstructionCache) : (s.setCache c).pc = s.pc := rfl
@[simp] theorem State.setCache_regs (c : InstructionCache) : (s.setCache c).regs = s.regs := rfl
@[simp] theorem State.setCache_reg (c : InstructionCache) (i : RegIdx) : (s.setCache c).reg i = s.reg i := rfl
@[simp] theorem State.setCache_device (c : InstructionCache) : (s.setCache c).device = s.device := rfl
@[simp] theorem State.setCache_fault (c : InstructionCache) : (s.setCache c).fault = s.fault := rfl
@[simp] theorem State.setCache_freeCount (c : InstructionCache) : (s.setCache c).freeCount = s.freeCount := rfl

@[simp] theorem State.setDevice_device (d : MemoryDevice) : (s.setDevice d).device = d := rfl
@[simp] theorem State.setDevice_pc (d : MemoryDevice) : (s.setDevice d).pc = s.pc := rfl
@[simp] theorem State.setDevice_regs (d : MemoryDevice) : (s.setDevice d).regs = s.regs := rfl
@[simp] theorem State.setDevice_reg (d : MemoryDevice) (i : RegIdx) : (s.setDevice d).reg i = s.reg i := rfl
@[simp] theorem State.setDevice_cache (d : MemoryDevice) : (s.setDevice d).cache = s.cache := rfl
@[simp] theorem State.setDevice_fault (d : MemoryDevice) : (s.setDevice d).fault = s.fault := rfl
@[simp] theorem State.setDevice_freeCount (d : MemoryDevice) : (s.setDevice d).freeCount = s.freeCount := rfl

@[simp] theorem State.raise_fault (f : Fault) : (s.raise f).fault = some f := rfl
@[simp] theorem State.raise_pc (f : Fault) : (s.raise f).pc = s.pc := rfl
@[simp] theorem State.raise_regs (f : Fault) : (s.raise f).regs = s.regs := rfl
@[simp] theorem State.raise_reg (f : Fault) (i : RegIdx) : (s.raise f).reg i = s.reg i := rfl
@[simp] theorem State.raise_cache (f : Fault) : (s.raise f).cache = s.cache := rfl
@[simp] theorem State.raise_device (f : Fault) : (s.raise f).device = s.device := rfl
@[simp] theorem State.raise_freeCount (f : Fault) : (s.raise f).freeCount = s.freeCount := rfl

variable (c : InstructionCache)

@[simp] theorem InstructionCache.setIndex_index (a : Word) : (c.setIndex a).index = a := rfl
@[simp] theorem InstructionCache.setIndex_bottom (a : Word) : (c.setIndex a).bottom = c.bottom := rfl
@[simp] theorem InstructionCache.setIndex_top (a : Word) : (c.setIndex a).top = c.top := rfl
@[simp] theorem InstructionCache.setIndex_window (a : Word) : (c.setIndex a).window = c.window := rfl
@[simp] theorem InstructionCache.setIndex_setIndex (a b : Word) : (c.setIndex a).setIndex b = c.setIndex b := rfl

/-- A register reads what was last written to it, register 0 included (R11). -/
theorem State.reg_setReg_same (i : RegIdx) (v : Word) : (s.setReg i v).reg i = v := by
  simp [State.reg, State.setReg]

/-- Writing one register leaves every other one alone. -/
theorem State.reg_setReg_other {i j : RegIdx} (h : j ≠ i) (v : Word) : (s.setReg i v).reg j = s.reg j := by
  have hne : (i : Nat) ≠ j := fun e => h (Fin.ext e.symm)
  simp [State.reg, State.setReg, hne]

end Sys2Proof.Machine
end

