-- ==== Sys2Proof/Laws/Cache.lean ====
section
/-! SUPPORT. What the instruction cache can do: one case lemma for `fetch`, the window test where the window is placed,
and what the copy loop of `load` leaves. -/

namespace Sys2Proof.Machine

/-- Everything `fetch` can answer, in the order of R41. -/
theorem cacheFetch_cases (c : InstructionCache) (a : Word) :
    (a.toNat % 4 ≠ 0 ∧ cacheFetch c a = .error (.misalignedFetch a)) ∨
    (a.toNat % 4 = 0 ∧ a = 0 ∧ cacheFetch c a = .error .nullFetch) ∨
    (a.toNat % 4 = 0 ∧ a ≠ 0 ∧ c.inWindow a = false ∧ cacheFetch c a = .error (.cacheMiss a)) ∨
    (a.toNat % 4 = 0 ∧ a ≠ 0 ∧ c.inWindow a = true ∧ a = c.index ∧
      cacheFetch c a = .ok (c.wordAt a, c.setIndex (c.advance a))) ∨
    (a.toNat % 4 = 0 ∧ a ≠ 0 ∧ c.inWindow a = true ∧ a ≠ c.index ∧ a.toNat < c.top.toNat - 4 ∧
      cacheFetch c a = .ok (c.wordAt a, c.setIndex (a + 4))) ∨
    (a.toNat % 4 = 0 ∧ a ≠ 0 ∧ c.inWindow a = true ∧ a ≠ c.index ∧ ¬ a.toNat < c.top.toNat - 4 ∧
      cacheFetch c a = .error (.cacheMiss a)) := by
  unfold cacheFetch
  split
  · exact .inl ⟨‹_›, rfl⟩
  · split
    · exact .inr (.inl ⟨by omega, ‹_›, rfl⟩)
    · split
      · exact .inr (.inr (.inl ⟨by omega, ‹_›, ‹_›, rfl⟩))
      · have hw : c.inWindow a = true := by simpa using ‹¬ c.inWindow a = false›
        split
        · exact .inr (.inr (.inr (.inl ⟨by omega, ‹_›, hw, ‹_›, rfl⟩)))
        · split
          · exact .inr (.inr (.inr (.inr (.inl ⟨by omega, ‹_›, hw, ‹_›, ‹_›, rfl⟩))))
          · exact .inr (.inr (.inr (.inr (.inr ⟨by omega, ‹_›, hw, ‹_›, ‹_›, rfl⟩))))

/-- A fetch that answers a word moves the cursor and nothing else (R48). -/
theorem cacheFetch_ok {c c' : InstructionCache} {a w : Word} (h : cacheFetch c a = .ok (w, c')) :
    a.toNat % 4 = 0 ∧ a ≠ 0 ∧ c.inWindow a = true ∧ w = c.wordAt a ∧ ∃ x, c' = c.setIndex x := by
  rcases cacheFetch_cases c a with ⟨_, e⟩ | ⟨_, _, e⟩ | ⟨_, _, _, e⟩ | ⟨h1, h2, h3, _, e⟩ | ⟨h1, h2, h3, _, _, e⟩ |
    ⟨_, _, _, _, _, e⟩ <;> rw [e] at h <;> cases h
  · exact ⟨h1, h2, h3, rfl, _, rfl⟩
  · exact ⟨h1, h2, h3, rfl, _, rfl⟩

/-- Where the window is placed, check 3 is the test of R41 and nothing more. -/
theorem InstructionCache.inWindow_iff {c : InstructionCache} (h : c.bottom.toNat + 1024 = c.top.toNat) (a : Word) :
    c.inWindow a = true ↔ c.bottom.toNat ≤ a.toNat ∧ a.toNat + 4 ≤ c.top.toNat := by
  simp only [InstructionCache.inWindow, Bool.and_eq_true, decide_eq_true_eq]
  constructor
  · exact fun h => h.1
  · rintro ⟨h1, h2⟩
    exact ⟨⟨h1, h2⟩, by unfold InstructionCache.offset cacheSize; omega⟩

/-- The copy loop keeps the canonical form and stays inside the buffer. -/
theorem copyWords_wf {d : MemoryDevice} {target : Word} {n k : Nat} {m m' : Memory} (hm : m.wf = true)
    (hw : m.within 0 cacheSize = true) (hk : 4 * (k + n) ≤ cacheSize) (h : copyWords d target n k m = .ok m') :
    m'.wf = true ∧ m'.within 0 cacheSize = true := by
  induction n generalizing k m with
  | zero =>
    simp only [copyWords, Except.ok.injEq] at h
    subst h
    exact ⟨hm, hw⟩
  | succ n ih =>
    unfold copyWords at h
    split at h
    · exact ih (Memory.writeWord_wf hm _ _) (Memory.writeWord_within hw (by omega) (by omega) _) (by omega) h
    · cases h

/-- The copy loop with every read in bounds: the window bytes before `4k` stay, those it reaches are the device's, and no
address wraps below `2^32` (R40). -/
theorem copyWords_ok (d : MemoryDevice) (target : Word) (ht : target.toNat + cacheSize < 2 ^ 32) (n k : Nat) (m : Memory)
    (hm : m.wf = true) (hk : k + n ≤ cacheWords)
    (h : ∀ j, k ≤ j → j < k + n → d.inBounds (target + BitVec.ofNat 32 (4 * j)) = true) :
    ∃ m', copyWords d target n k m = .ok m' ∧ (∀ j, j < 4 * k → m'.readByte j = m.readByte j) ∧
      (∀ j, 4 * k ≤ j → j < 4 * (k + n) → m'.readByte j = d.byteAt (target.toNat + j)) := by
  unfold cacheSize at ht
  unfold cacheWords at hk
  induction n generalizing k m with
  | zero => exact ⟨m, rfl, fun _ _ => rfl, fun j h1 h2 => by omega⟩
  | succ n ih =>
    have hk' := h k le_rfl (by omega)
    have ha : (target + BitVec.ofNat 32 (4 * k)).toNat = target.toNat + 4 * k := by
      rw [BitVec.toNat_add, BitVec.toNat_ofNat]; omega
    obtain ⟨m', h1, h2, h3⟩ := ih (k + 1) (m.writeWord (4 * k) (d.bytes.readWord (target.toNat + 4 * k)))
      (Memory.writeWord_wf hm _ _) (by omega) (fun j _ _ => h j (by omega) (by omega))
    refine ⟨m', ?_, fun j hj => ?_, fun j hj1 hj2 => ?_⟩
    · unfold copyWords
      rw [MemoryDevice.read_of_inBounds hk', ha]
      exact h1
    · rw [h2 j (by omega), Memory.readByte_writeWord_other _ _ _ (by omega)]
    · by_cases hlt : j < 4 * (k + 1)
      · obtain ⟨i, rfl⟩ : ∃ i, j = 4 * k + i := ⟨j - 4 * k, by omega⟩
        rw [h2 _ hlt, Memory.readByte_writeWord_same hm _ _ (by omega), byteOfWord_readWord _ _ (by omega)]
        exact congrArg d.byteAt (by omega)
      · exact h3 j (by omega) (by omega)

/-- The copy loop with a read out of bounds ends in the first of them (R40, R28). -/
theorem copyWords_error (d : MemoryDevice) (target : Word) (n k : Nat) (m : Memory)
    (h : ∃ j, k ≤ j ∧ j < k + n ∧ d.inBounds (target + BitVec.ofNat 32 (4 * j)) = false) :
    ∃ j, k ≤ j ∧ j < k + n ∧ d.inBounds (target + BitVec.ofNat 32 (4 * j)) = false ∧
      (∀ i, k ≤ i → i < j → d.inBounds (target + BitVec.ofNat 32 (4 * i)) = true) ∧
      copyWords d target n k m = .error { address := target + BitVec.ofNat 32 (4 * j) } := by
  induction n generalizing k m with
  | zero => obtain ⟨j, h1, h2, _⟩ := h; omega
  | succ n ih =>
    cases hk : d.inBounds (target + BitVec.ofNat 32 (4 * k)) with
    | false =>
      exact ⟨k, le_rfl, by omega, hk, fun i _ _ => by omega, by
        unfold copyWords; rw [MemoryDevice.read_of_outOfBounds hk]⟩
    | true =>
      obtain ⟨j, h1, h2, h3⟩ := h
      have hne : j ≠ k := by rintro rfl; rw [hk] at h3; cases h3
      obtain ⟨j', a, b, c, e, f⟩ := ih (k + 1)
        (m.writeWord (4 * k) (d.bytes.readWord (target + BitVec.ofNat 32 (4 * k)).toNat)) ⟨j, by omega, by omega, h3⟩
      refine ⟨j', by omega, by omega, c, fun i _ hi => ?_, ?_⟩
      · by_cases hik : i = k
        · rw [hik]; exact hk
        · exact e i (by omega) hi
      · unfold copyWords
        rw [MemoryDevice.read_of_inBounds hk]
        exact f

/-- The free window keeps the canonical form and stays inside the buffer. -/
theorem unspecifiedBytes_wf {free n k : Nat} {m : Memory} (hm : m.wf = true) (hw : m.within 0 cacheSize = true)
    (hk : k + n ≤ cacheSize) :
    (unspecifiedBytes free n k m).wf = true ∧ (unspecifiedBytes free n k m).within 0 cacheSize = true := by
  induction n generalizing k m with
  | zero => exact ⟨hm, hw⟩
  | succ n ih =>
    unfold unspecifiedBytes
    exact ih (Memory.writeByte_wf hm _ _) (Memory.writeByte_within hw (by omega) (by omega) _) (by omega)

/-- The bounds and the cursor that `load` sets, whether or not a read fails; and the buffer is well formed (R27, R28). -/
theorem loadCache_cache (free : Nat) (target : Word) (d : MemoryDevice) :
    (loadCache free target d).cache.bottom = target ∧ (loadCache free target d).cache.top = target + 1024 ∧
      (loadCache free target d).cache.index = target ∧ (loadCache free target d).cache.bufferWf = true := by
  unfold loadCache InstructionCache.bufferWf
  split
  · exact ⟨rfl, rfl, rfl, by simp [copyWords_wf (m := []) (n := cacheWords) (k := 0) rfl rfl (by decide) ‹_›]⟩
  · exact ⟨rfl, rfl, rfl, by simp [unspecifiedBytes_wf (m := []) (n := cacheSize) (k := 0) rfl rfl (by decide)]⟩

end Sys2Proof.Machine
end

