-- ==== Sys2Proof/Laws/Cycle.lean ====
section
/-! SUPPORT. What an instruction, a phase and a step can do, said once each; provers cite these instead of unfolding. -/

namespace Sys2Proof.Machine

/-- Every instruction answers a next state, and touches registers and `pc` only (R12, R81). -/
theorem exec_next (i : Instr) (s : State) :
    ∃ t, exec i s = .next t ∧ t.cache = s.cache ∧ t.device = s.device ∧ t.fault = s.fault ∧
      t.freeCount = s.freeCount := by
  cases i <;> exact ⟨_, rfl, rfl, rfl, rfl, rfl⟩

/-- The halted core in `rising` (R115). -/
theorem rising_halted {s : State} {f : Fault} (h : s.fault = some f) : rising s = .ok s := by
  unfold rising; rw [h]

/-- A `rising` whose fetch raises (R114). -/
theorem rising_raise {s : State} {f : Fault} (h : s.fault = none) (hf : cacheFetch s.cache s.pc = .error f) :
    rising s = .ok (s.raise f) := by
  unfold rising; rw [h, hf]

/-- A `rising` whose fetch delivers a word (R81). -/
theorem rising_exec {s t : State} {w : Word} {c : InstructionCache} (h : s.fault = none)
    (hf : cacheFetch s.cache s.pc = .ok (w, c)) (he : exec (decode w) (s.setCache c) = .next t) :
    rising s = .ok t := by
  unfold rising; rw [h, hf]; simp only [he, settle]

/-- Everything `rising` can do (R81). -/
theorem rising_cases (s : State) :
    (∃ f, s.fault = some f ∧ rising s = .ok s) ∨
    (s.fault = none ∧ ∃ f, cacheFetch s.cache s.pc = .error f ∧ rising s = .ok (s.raise f)) ∨
    (s.fault = none ∧ ∃ w c t, cacheFetch s.cache s.pc = .ok (w, c) ∧ exec (decode w) (s.setCache c) = .next t ∧
      rising s = .ok t) := by
  cases h : s.fault with
  | some f => exact .inl ⟨f, rfl, rising_halted h⟩
  | none =>
    cases hf : cacheFetch s.cache s.pc with
    | error f => exact .inr (.inl ⟨rfl, f, rfl, rising_raise h hf⟩)
    | ok p =>
      obtain ⟨w, c⟩ := p
      obtain ⟨t, he, -⟩ := exec_next (decode w) (s.setCache c)
      exact .inr (.inr ⟨rfl, w, c, t, rfl, he, rising_exec h hf he⟩)

/-- `falling` of a halted core (R115). -/
theorem falling_halted {s : State} {f : Fault} (h : s.fault = some f) : falling s = s := by
  unfold falling; rw [h]

/-- `falling` of a running core (R82). -/
theorem falling_running {s : State} (h : s.fault = none) :
    falling s = (s.setPc (s.pc + 4)).setCache (s.cache.setIndex (s.pc + 4)) := by
  unfold falling; rw [h]

/-- `falling` never sets or clears the latch. -/
@[simp] theorem falling_fault (s : State) : (falling s).fault = s.fault := by
  cases h : s.fault with
  | some f => rw [falling_halted h, h]
  | none => rw [falling_running h]; simpa using h

/-- `falling` touches no register and no memory (R82). -/
@[simp] theorem falling_regs (s : State) : (falling s).regs = s.regs := by
  cases h : s.fault with
  | some f => rw [falling_halted h]
  | none => rw [falling_running h]; rfl

@[simp] theorem falling_device (s : State) : (falling s).device = s.device := by
  cases h : s.fault with
  | some f => rw [falling_halted h]
  | none => rw [falling_running h]; rfl

/-- A step of a halted core (R115). -/
theorem step_halted {s : State} {f : Fault} (h : s.fault = some f) : step s = .fault f := by
  unfold step cycle; rw [rising_halted h]; simp [report, h]

/-- A step whose fetch raises. -/
theorem step_raise {s : State} {f : Fault} (h : s.fault = none) (hf : cacheFetch s.cache s.pc = .error f) :
    step s = .fault f := by
  unfold step cycle; rw [rising_raise h hf]; simp [report]

/-- A step that runs an instruction. -/
theorem step_exec {s t : State} {w : Word} {c : InstructionCache} (h : s.fault = none)
    (hf : cacheFetch s.cache s.pc = .ok (w, c)) (he : exec (decode w) (s.setCache c) = .next t) :
    step s = .next (falling t) ∧ t.fault = none ∧ t.cache = c ∧ t.device = s.device := by
  obtain ⟨t', he', hc, hd, hfl, -⟩ := exec_next (decode w) (s.setCache c)
  obtain rfl : t' = t := by rw [he] at he'; cases he'; rfl
  have hn : t'.fault = none := by rw [hfl]; simpa using h
  refine ⟨?_, hn, hc, hd⟩
  unfold step cycle; rw [rising_exec h hf he]; simp [report, hn]

/-- Everything a step that answers a next state can do. -/
theorem step_next {s t : State} (h : step s = .next t) :
    s.fault = none ∧ ∃ w c u, cacheFetch s.cache s.pc = .ok (w, c) ∧ exec (decode w) (s.setCache c) = .next u ∧
      u.fault = none ∧ u.cache = c ∧ u.device = s.device ∧ t = falling u := by
  rcases rising_cases s with ⟨f, hf, -⟩ | ⟨hn, f, hf, -⟩ | ⟨hn, w, c, u, hf, he, -⟩
  · rw [step_halted hf] at h; cases h
  · rw [step_raise hn hf] at h; cases h
  · obtain ⟨hs, h1, h2, h3⟩ := step_exec hn hf he
    rw [hs] at h
    cases h
    exact ⟨hn, w, c, u, hf, he, h1, h2, h3, rfl⟩

end Sys2Proof.Machine
end

