-- ==== Sys2Proof/Laws/Encoding.lean ====
section
/-! SUPPORT. Small laws of fields, formats and decode, which the round trips are assembled from. -/

namespace Sys2Proof

@[simp] theorem regOfField_fieldOfReg (r : RegIdx) : regOfField (fieldOfReg r) = r := rfl
@[simp] theorem fieldOfReg_regOfField (f : BitVec 5) : fieldOfReg (regOfField f) = f := rfl
@[simp] theorem dirOfField_fieldOfDir (d : Direction) : dirOfField (fieldOfDir d) = d := by cases d <;> rfl
@[simp] theorem fieldOfDir_dirOfField (f : BitVec 1) : fieldOfDir (dirOfField f) = f := by
  have : f = 0 ∨ f = 1 := by revert f; decide
  rcases this with rfl | rfl <;> rfl

/-- The bits of a J-type word, field by field (R62). -/
theorem wordOfJType_getLsbD (v : JType) (i : Nat) :
    (wordOfJType v).getLsbD i =
      if i < 7 then v.op.getLsbD i else if i - 7 < 5 then v.rd.getLsbD (i - 7)
      else if i - (7 + 5) < 19 then v.imm.getLsbD (i - (7 + 5)) else v.sign.getLsbD (i - (7 + (5 + 19))) := by
  simp only [wordOfJType, BitVec.getLsbD_append, Nat.sub_sub, Nat.add_assoc]

/-- The bits of an I-type word, field by field (R62). -/
theorem wordOfIType_getLsbD (v : IType) (i : Nat) :
    (wordOfIType v).getLsbD i =
      if i < 7 then v.op.getLsbD i else if i - 7 < 5 then v.rd.getLsbD (i - 7)
      else if i - (7 + 5) < 3 then v.funct3.getLsbD (i - (7 + 5))
      else if i - (7 + (5 + 3)) < 5 then v.rs1.getLsbD (i - (7 + (5 + 3)))
      else v.imm.getLsbD (i - (7 + (5 + (3 + 5)))) := by
  simp only [wordOfIType, BitVec.getLsbD_append, Nat.sub_sub, Nat.add_assoc]

/-- The bits of an R-type word, field by field (R62). -/
theorem wordOfRType_getLsbD (v : RType) (i : Nat) :
    (wordOfRType v).getLsbD i =
      if i < 7 then v.op.getLsbD i else if i - 7 < 5 then v.rd.getLsbD (i - 7)
      else if i - (7 + 5) < 3 then v.funct3.getLsbD (i - (7 + 5))
      else if i - (7 + (5 + 3)) < 5 then v.rs1.getLsbD (i - (7 + (5 + 3)))
      else if i - (7 + (5 + (3 + 5))) < 5 then v.rs2.getLsbD (i - (7 + (5 + (3 + 5))))
      else v.funct7.getLsbD (i - (7 + (5 + (3 + (5 + 5))))) := by
  simp only [wordOfRType, BitVec.getLsbD_append, Nat.sub_sub, Nat.add_assoc]

/-- The format of a word whose opcode field is known. -/
theorem formatOfWord_of_op {w : Word} {op : BitVec 7} (h : w.extractLsb' 0 7 = op) :
    w.extractLsb' 0 3 = op.extractLsb' 0 3 := by
  subst h
  refine BitVec.eq_of_getLsbD_eq fun i hi => ?_
  simp [hi]

/-- What `decode` can answer, with the opcode tests that select each answer (R68). -/
theorem decode_cases (w : Word) :
    (w.extractLsb' 0 7 = 0b1101111 ∧ decode w = .jal (regOfField (w.extractLsb' 7 5)) (w.extractLsb' 12 19)
        (dirOfField (w.extractLsb' 31 1))) ∨
    ((w.extractLsb' 0 7 = 0b0010011 ∧ w.extractLsb' 12 3 = 0b000) ∧ decode w = .addi (regOfField (w.extractLsb' 15 5))
        (w.extractLsb' 20 12) (regOfField (w.extractLsb' 7 5))) ∨
    (w.extractLsb' 0 7 ≠ 0b1101111 ∧ ¬ (w.extractLsb' 0 7 = 0b0010011 ∧ w.extractLsb' 12 3 = 0b000) ∧
      decode w = .unrecognised w) := by
  by_cases hj : w.extractLsb' 0 7 = 0b1101111
  · have h3 : w.extractLsb' 0 3 = 0b111 := (formatOfWord_of_op hj).trans (by decide)
    simp [decode, formatOfWord, h3, jTypeOfWord, hj]
  · by_cases ha : w.extractLsb' 0 7 = 0b0010011 ∧ w.extractLsb' 12 3 = 0b000
    · have h3 : w.extractLsb' 0 3 = 0b011 := (formatOfWord_of_op ha.1).trans (by decide)
      simp [decode, formatOfWord, h3, iTypeOfWord, ha]
    · refine .inr (.inr ⟨hj, ha, ?_⟩)
      have ha' : ¬ ((iTypeOfWord w).funct3 = 0b000 ∧ (iTypeOfWord w).op = 0b0010011) := fun h => ha ⟨h.2, h.1⟩
      unfold decode
      split
      · exact if_neg hj
      · exact if_neg ha'
      · rfl

/-- The `JAL` row of the opcode map is the full-opcode test (R67). -/
theorem jalRow_holds_iff (w : Word) : jalRow.holds w = true ↔ w.extractLsb' 0 7 = 0b1101111 := by
  have key : w &&& 0x0000007F = (w.extractLsb' 0 7).setWidth 32 := by
    refine BitVec.eq_of_getLsbD_eq fun i hi => ?_
    interval_cases i <;> simp
  simp only [OpcodeRow.holds, jalRow, beq_iff_eq, key]
  constructor
  · intro h
    have := congrArg (BitVec.setWidth 7) h
    simpa using this
  · rintro h
    rw [h]; rfl

/-- The `ADDI` row of the opcode map is the opcode and `funct3` test (R67). -/
theorem addiRow_holds_iff (w : Word) :
    addiRow.holds w = true ↔ w.extractLsb' 0 7 = 0b0010011 ∧ w.extractLsb' 12 3 = 0b000 := by
  have key : addiRow.holds w = true ↔ ∀ i < 32, (w &&& 0x0000707F).getLsbD i = (0x00000013 : Word).getLsbD i := by
    simp only [OpcodeRow.holds, addiRow, beq_iff_eq]
    exact ⟨fun h i _ => by rw [h], BitVec.eq_of_getLsbD_eq⟩
  rw [key]
  constructor
  · intro h
    constructor <;> refine BitVec.eq_of_getLsbD_eq fun i hi => ?_
    · have := h i (by omega)
      interval_cases i <;> simpa using this
    · have := h (12 + i) (by omega)
      interval_cases i <;> simpa using this
  · rintro ⟨h1, h2⟩ i hi
    by_cases h7 : i < 7
    · have := congrArg (fun v => BitVec.getLsbD v i) h1
      interval_cases i <;> simpa using this
    · by_cases h12 : 12 ≤ i ∧ i < 15
      · have := congrArg (fun v => BitVec.getLsbD v (i - 12)) h2
        obtain ⟨ha, hb⟩ := h12
        interval_cases i <;> simpa using this
      · interval_cases i <;> simp_all

end Sys2Proof
end

