-- ==== Sys2Proof/Laws/PerInstr.lean ====
section
/-! SUPPORT. Per-instruction families (LAWS.json): each well-formed instruction's word lies in its own row of the opcode
map and in no other. -/

namespace Sys2Proof.Laws.EncodesInOwnRow

/-- Which rows of the opcode map hold the encoded word (R67): its own row only. -/
def Statement (i : Instr) : Prop :=
  i.wellFormed = true →
    match i with
    | .jal _ _ _ => jalRow.holds (encode i) = true ∧ addiRow.holds (encode i) = false
    | .addi _ _ _ => jalRow.holds (encode i) = false ∧ addiRow.holds (encode i) = true
    | .unrecognised _ => jalRow.holds (encode i) = false ∧ addiRow.holds (encode i) = false

theorem op_of_jType (v : JType) : (wordOfJType v).extractLsb' 0 7 = v.op := by
  refine BitVec.eq_of_getLsbD_eq fun i hi => ?_
  simp [wordOfJType_getLsbD, hi]

theorem op_of_iType (v : IType) : (wordOfIType v).extractLsb' 0 7 = v.op := by
  refine BitVec.eq_of_getLsbD_eq fun i hi => ?_
  simp [wordOfIType_getLsbD, hi]

theorem funct3_of_iType (v : IType) : (wordOfIType v).extractLsb' 12 3 = v.funct3 := by
  refine BitVec.eq_of_getLsbD_eq fun i hi => ?_
  rw [BitVec.getLsbD_extractLsb', wordOfIType_getLsbD]
  interval_cases i <;> simp

theorem jal (rd : RegIdx) (imm19 : BitVec 19) (dir : Direction) : Statement (.jal rd imm19 dir) := by
  intro _
  refine ⟨(jalRow_holds_iff _).2 (op_of_jType _), ?_⟩
  rw [Bool.eq_false_iff, Ne, addiRow_holds_iff]
  rintro ⟨h, _⟩
  exact absurd ((op_of_jType _).symm.trans h) (by simp)

theorem addi (rs1 : RegIdx) (imm12 : BitVec 12) (rd : RegIdx) : Statement (.addi rs1 imm12 rd) := by
  intro _
  refine ⟨?_, (addiRow_holds_iff _).2 ⟨op_of_iType _, funct3_of_iType _⟩⟩
  rw [Bool.eq_false_iff, Ne, jalRow_holds_iff]
  intro h
  exact absurd ((op_of_iType _).symm.trans h) (by simp)

theorem unrecognised (w : Word) : Statement (.unrecognised w) := by
  intro h
  simpa [Instr.wellFormed, encode] using h

end Sys2Proof.Laws.EncodesInOwnRow
end

