-- ==== Sys2Proof/Tests/Slice0.lean ====
section
/-! SUPPORT. The model's own tests. Expected values come from spec/95_test_vectors.md (the section is named at each test)
or are written out from the encodings of spec/30_encoding.md; the witnesses show that each statement's hypotheses are met. -/

namespace Sys2Proof.Tests

open Sys2Proof.Machine

/-- A core on a cycle boundary with the window of 95_test_vectors' default configuration, `pc` as given and the word `w`
there. -/
def demo (pc w : Word) : State :=
  State.placeWord
    { regs := Vector.replicate 32 0, pc := pc,
      cache := { bottom := 0x20000000, top := 0x20000400, index := pc, window := [] },
      device := { baseAddress := 0x20000000, length := 4096, bytes := [] }, fault := none, freeCount := 0 } w

/-- The device of 95_test_vectors section 2.1, after its two writes. -/
def dev : MemoryDevice :=
  { baseAddress := 0x20000000, length := 4096,
    bytes := Memory.writeWord (Memory.writeWord [] 0x20000000 0x11223344) 0x20000004 0xAABBCCDD }

/-- The outcome is a next state with the property. -/
def nextHas (p : State → Bool) : Host.Outcome State Fault Refusal → Bool
  | .next t => p t
  | .fault _ => false
  | .refused _ => false

/-- The outcome is this fault. -/
def faultIs (f : Fault) : Host.Outcome State Fault Refusal → Bool
  | .next _ => false
  | .fault g => decide (g = f)
  | .refused _ => false

/-- The phase ends in a state with the property. -/
def okHas {α : Type} (p : α → Bool) : Except Refusal α → Bool
  | .ok t => p t
  | .error _ => false

/-! ### WellFormed refuses an ill-formed term for each check -/

theorem test_wellFormed_refuses_a_jal_word : (Instr.unrecognised 0x8000C0EF).wellFormed = false := by decide
theorem test_wellFormed_refuses_an_addi_word : (Instr.unrecognised 0x00128293).wellFormed = false := by decide

/-! ### Decode: words written out bit by bit from R62 -/

/-- sign 1, imm19 12, rd 1, op 1101111. -/
theorem test_decode_jal : decode 0b10000000000000001100000011101111 = .jal 1 12 .backward := by decide
/-- imm12 2048, rs1 5, funct3 000, rd 9, op 0010011. -/
theorem test_decode_addi : decode 0b10000000000000101000010010010011 = .addi 5 2048 9 := by decide
/-- funct3 001, op 0010011. -/
theorem test_decode_unrecognised : decode 0b00000000000000000001000000010011 = .unrecognised 0x00001013 := by decide
theorem test_decodeBytes_little_endian :
    decodeBytes [0x93, 0x82, 0x12, 0x00, 0x13] = .ok (.addi 5 1 5, [0x13]) := by decide
theorem test_decodeBytes_rejects_by_name : decodeBytes [0x93, 0x82, 0x12] = .error (.tooFewBytes 3) := by decide
/-- The first two lines of 95_test_vectors P1 and the third of them. -/
theorem test_assemble : assemble (.addi 5 1) = 0x00128293 ∧ assemble (.jalMinus 1 12) = 0x8000C0EF ∧
    assemble (.addiRd 5 0x800 9) = 0x80028493 := by decide

/-! ### The instructions: one step each, 95_test_vectors sections 2.4 to 2.6 -/

theorem test_addi_wraps :
    nextHas (fun t => t.reg 5 == 0 && t.pc == 0x20000004) (step ((demo 0x20000000 0x00128293).setReg 5 0xFFFFFFFF)) =
      true := by decide
theorem test_addi_zero_extends_and_ignores_rd :
    nextHas (fun t => t.reg 5 == 0x80000000 && t.reg 9 == 7)
      (step (((demo 0x20000000 0x80028493).setReg 5 0x7FFFF800).setReg 9 7)) = true := by decide
theorem test_jal_backward :
    nextHas (fun t => t.reg 1 == 0x2000000C && t.pc == 0x20000000) (step (demo 0x20000008 0x8000C0EF)) = true := by
  decide
theorem test_jal_links_x0_and_may_misalign :
    nextHas (fun t => t.reg 0 == 0x20000004 && t.pc == 0x20000006) (step (demo 0x20000000 0x0000206F)) = true := by
  decide
theorem test_unrecognised_moves_pc_and_cursor :
    nextHas (fun t => decide (t = { demo 0x20000010 0xFFFFFFFF with
      pc := 0x20000014, cache := { (demo 0x20000010 0xFFFFFFFF).cache with index := 0x20000014 } }))
      (step (demo 0x20000010 0xFFFFFFFF)) = true := by decide
theorem test_unrecognised_at_the_last_word_leaves_the_sentinel :
    okHas (fun t => t.cache.index == 0 && t.pc == 0x200003FC) (rising (demo 0x200003FC 0x00000000)) = true := by decide

/-! ### Memory, cache and faults: 95_test_vectors sections 2.1, 2.2, 2.7 -/

theorem test_read_unaligned : dev.read 0x20000003 = .ok 0xBBCCDD11 := by decide
theorem test_write_overlapping :
    (match dev.write 0x20000002 0xDEADBEEF with
      | .ok d => decide (d.read 0x20000000 = .ok 0xBEEF3344 ∧ d.read 0x20000004 = .ok 0xAABBDEAD)
      | .error _ => false) = true := by decide
theorem test_bounds : dev.read 0x20000FFC = .ok 0 ∧ dev.read 0x20000FFD = .error ⟨0x20000FFD⟩ ∧
    dev.read 0x1FFFFFFF = .error ⟨0x1FFFFFFF⟩ ∧ dev.read 0xFFFFFFFE = .error ⟨0xFFFFFFFE⟩ := by decide
/-- Writing the byte an unlisted address reads as removes the entry. -/
theorem test_write_is_canonical : Memory.writeByte [(3, 7), (5, 9)] 3 0 = [(5, 9)] := by decide
theorem test_fetch_last_word_off_the_cursor :
    cacheFetch ((demo 0x20000000 0).cache.setIndex 0) 0x200003FC = .error (.cacheMiss 0x200003FC) := by decide
theorem test_fetch_misaligned_before_miss :
    cacheFetch (demo 0x20000000 0).cache 0x20000401 = .error (.misalignedFetch 0x20000401) := by decide
theorem test_step_cacheMiss_even_on_the_cursor : faultIs (.cacheMiss 0x20000400) (step (demo 0x20000400 0)) = true := by
  decide
theorem test_halted_keeps_its_first_fault :
    faultIs .nullFetch (step ((demo 0x20000002 0).raise .nullFetch)) = true := by decide

/-! ### Reset, and a program from it: 95_test_vectors sections 2.7, P1 -/

theorem test_reset_inv : State.reset.Inv ∧ State.reset.Running := by decide +kernel
theorem test_reset_runs_the_placed_word :
    nextHas (fun t => t.reg 5 == 1 && t.pc == 0x20000004) (step (State.reset.withFetchWord 32 0x00128293)) = true := by
  decide +kernel
theorem test_reset_window_does_not_fit :
    (State.ofConfig { Config.standard with pcReset := 0x20000C04 }).fault = some (.outOfBounds 0x20001000) := by
  decide +kernel
/-- The program is written into the device first, then the Hart is constructed (R132). -/
theorem test_program_written_before_construction :
    (match (MemoryDevice.create 0x20000000 4096 []).writeProgram [(0x20000000, 0x00128293), (0x20000004, 0x00430313)] with
      | .ok d => nextHas (fun t => t.reg 5 == 1) (step (State.construct 0 0x20000000 0 2 d))
      | .error _ => false) = true := by decide +kernel

/-! ### Witnesses: the hypotheses of each statement are met, clause by clause, at boundary values -/

theorem test_witness_DecodeIsTheSpecDispatch :
    ((0x8000C0EF : Word).extractLsb 2 0 = 0b111#3 ∧ (0x8000C0EF : Word).extractLsb 6 0 = 0b1101111#7) ∧
    ((0xFFFFFFFF : Word).extractLsb 2 0 = 0b111#3 ∧ (0xFFFFFFFF : Word).extractLsb 6 0 ≠ 0b1101111#7) ∧
    ((0x00128293 : Word).extractLsb 2 0 = 0b011#3 ∧ (0x00128293 : Word).extractLsb 14 12 = 0b000#3 ∧
      (0x00128293 : Word).extractLsb 6 0 = 0b0010011#7) ∧
    ((0x00001013 : Word).extractLsb 2 0 = 0b011#3 ∧ (0x00001013 : Word).extractLsb 14 12 ≠ 0b000#3) ∧
    ((0x00000000 : Word).extractLsb 2 0 ≠ 0b111#3 ∧ (0x00000000 : Word).extractLsb 2 0 ≠ 0b011#3) := by decide

/-- The word clauses of AddiAddsIntoTheSourceRegister, JalTargetIsJudgedAtTheNextRising, UnrecognisedWordsAreSilentNoOps
and ImmediatesAreUnsignedAndUnscaled; words of 95_test_vectors section 2.3. -/
theorem test_witness_encoding_rows :
    (0xFFFF8F93 : Word) &&& 0x0000707F = 0x00000013 ∧ decode 0xFFFF8F93 = .addi 31 4095 31 ∧
    (0xFFF : BitVec 12).msb = true ∧
    (0x8000C0EF : Word) &&& 0x0000007F = 0x0000006F ∧ decode 0x8000C0EF = .jal 1 12 .backward ∧
    (0xFFFFFFFF : Word).extractLsb 6 0 ≠ 0b1101111#7 ∧ (0x00007013 : Word).extractLsb 6 0 ≠ 0b1101111#7 ∧
    ¬ ((0x00007013 : Word).extractLsb 6 0 = 0b0010011#7 ∧ (0x00007013 : Word).extractLsb 14 12 = 0b000#3) := by decide

theorem test_witness_DecodeOfEncodeIsTheInstruction :
    (Instr.jal 31 0x7FFFF .backward).wellFormed = true ∧ (Instr.addi 31 0xFFF 31).wellFormed = true ∧
      (Instr.unrecognised 0xFFFFFFFF).wellFormed = true ∧ (Instr.unrecognised 0x00007013).wellFormed = true := by decide

theorem test_witness_OtherImmediateWordsAreUnrecognised :
    ((0x00007013 : Word).extractLsb 6 0 = 0b0010011#7 ∧ (0x00007013 : Word).extractLsb 14 12 ≠ 0b000#3) ∧
    ((0x00000033 : Word).extractLsb 2 0 = 0b011#3 ∧ (0x00000033 : Word).extractLsb 6 3 ≠ 0b0010#4) := by decide

theorem test_witness_BytesDecodeFourAtATime : ([] : List Byte).length < 4 ∧ ([1, 2, 3] : List Byte).length < 4 := by
  decide

/-- Running, on a cycle boundary, executing each instruction; at the first and at the last word of the window. For
UnrecognisedWordsAreSilentNoOps, RepeatedPhases, JalTargetIsJudgedAtTheNextRising, MisalignedJumpFaultsOneCycleLater,
ExecutionIsConfinedToTheWindow, CycleNetEffect, PlacedWordIsTheNextInstruction. -/
theorem test_witness_Executes_unrecognised : (demo 0x20000000 0).Executes (.unrecognised 0) ∧
    (demo 0x200003FC 0).Executes (.unrecognised 0) ∧
    (demo 0x200003FC 0).pc.toNat + 4 = (demo 0x200003FC 0).cache.top.toNat := by decide
theorem test_witness_Executes_addi : (demo 0x200003F8 0x00128293).Executes (.addi 5 1 5) ∧
    (demo 0x200003F8 0x00128293).pc.toNat + 4 < (demo 0x200003F8 0x00128293).cache.top.toNat ∧
    (demo 0x200003FC 0x00128293).Executes (.addi 5 1 5) ∧
    (demo 0x200003FC 0x00128293).pc.toNat + 4 = (demo 0x200003FC 0x00128293).cache.top.toNat := by decide
theorem test_witness_Executes_jal : (demo 0x20000000 0x000020EF).Executes (.jal 1 2 .forward) ∧
    (2 : BitVec 19).toNat % 4 ≠ 0 ∧ (demo 0x20000000 0x8000406F).Executes (.jal 0 4 .backward) ∧
    (demo 0x20000000 0x000000EF).Executes (.jal 1 0 .forward) := by decide

/-- The last word of the window holds a word that is no `JAL` (ExecutionIsConfinedToTheWindow, clause 2;
RisingWritesAtMostOneRegister, last clause). -/
theorem test_witness_not_a_jal : ∀ rd imm19 dir,
    decode ((demo 0x200003FC 0).cache.wordAt (demo 0x200003FC 0).pc) ≠ .jal rd imm19 dir := by
  have h : decode ((demo 0x200003FC 0).cache.wordAt (demo 0x200003FC 0).pc) = .unrecognised 0 := by decide
  intro rd imm19 dir; rw [h]; exact fun e => by cases e

/-- Fetchable at both ends of the window, and not fetchable for each reason next to them (CycleNetEffect,
StepCompletesExactlyWhenFetchable, CursorIsNeverDecisiveForTheHart, FetchFaultPriority, RaiseChangesOnlyTheLatch). -/
theorem test_witness_fetchable_boundaries :
    ((demo 0x20000000 0).Running ∧ (demo 0x20000000 0).Inv ∧ (demo 0x20000000 0).Fetchable) ∧
    ((demo 0x200003FC 0).Running ∧ (demo 0x200003FC 0).Inv ∧ (demo 0x200003FC 0).Fetchable) ∧
    ((demo 0x20000400 0).Inv ∧ ¬ (demo 0x20000400 0).Fetchable ∧ (demo 0x20000400 0).pc.toNat % 4 = 0) ∧
    ((demo 0x1FFFFFFC 0).Inv ∧ ¬ (demo 0x1FFFFFFC 0).Fetchable ∧ (demo 0x1FFFFFFC 0).pc.toNat % 4 = 0) ∧
    ((demo 0x20000002 0).Inv ∧ (demo 0x20000002 0).pc.toNat % 4 ≠ 0) ∧
    ((demo 0 0).Inv ∧ (demo 0 0).Running ∧ (demo 0 0).pc = 0) := by decide

theorem test_witness_InstructionsChangeOnlyTheirDestination :
    ∃ t, exec (.jal 1 12 .backward) (demo 0x20000008 0x8000C0EF) = .next t := ⟨_, rfl⟩

theorem test_witness_InstructionsReadOnlyTheirSource :
    (∃ t, exec (.jal 1 12 .backward) (demo 0x20000008 0x8000C0EF) = .next t) ∧
    (∃ t, exec (.addi 5 1 5) (demo 0x20000000 0x00128293) = .next t ∧ (0 : RegIdx) ≠ 5) ∧
    (∃ t, exec (.unrecognised 0) (demo 0x20000000 0) = .next t) := ⟨⟨_, rfl⟩, ⟨_, rfl, by decide⟩, ⟨_, rfl⟩⟩

theorem test_witness_FaultsAriseInFetchOrReset :
    (demo 0x20000002 0).Running ∧
    okHas (fun t => t.fault == some (.misalignedFetch 0x20000002)) (rising (demo 0x20000002 0)) = true ∧
    (State.construct 0 0x1FFFFFFC 0 2 dev).fault = some (.outOfBounds 0x1FFFFFFC) ∧
    ((0x1FFFFFFF : Word).toNat < dev.baseAddress.toNat) ∧
    (dev.baseAddress.toNat + dev.length.toNat < (0x20000FFD : Word).toNat + 4) := by decide +kernel

/-- The `CacheMiss` clause of FaultsAriseInFetchOrReset: past the window, and its last word off the cursor. -/
theorem test_witness_FaultsAriseInFetchOrReset_miss :
    (demo 0x20000400 0).cache.Placed ∧
    okHas (fun t => t.fault == some (.cacheMiss 0x20000400)) (rising (demo 0x20000400 0)) = true ∧
    ((demo 0x200003FC 0).setCache ((demo 0x200003FC 0).cache.setIndex 0)).Running ∧
    okHas (fun t => t.fault == some (.cacheMiss 0x200003FC))
      (rising ((demo 0x200003FC 0).setCache ((demo 0x200003FC 0).cache.setIndex 0))) = true := by decide

/-- FallingAddsFourUnconditionally: running and halted. -/
theorem test_witness_FallingAddsFourUnconditionally :
    (demo 0xFFFFFFFC 0).Running ∧ ¬ ((demo 0x20000000 0).raise .nullFetch).Running := by decide

theorem test_witness_StepRunsTheDecodedInstruction :
    (demo 0x20000008 0x8000C0EF).Running ∧
    cacheFetch (demo 0x20000008 0x8000C0EF).cache 0x20000008 =
      .ok (0x8000C0EF, (demo 0x20000008 0x8000C0EF).cache.setIndex 0x2000000C) ∧
    (demo 0x20000008 0x8000C0EF).Inv ∧ (demo 0x20000008 0x8000C0EF).Fetchable ∧
    decodeBytes ((demo 0x20000008 0x8000C0EF).cache.window.readByte 8 ::
      (demo 0x20000008 0x8000C0EF).cache.window.readByte 9 :: (demo 0x20000008 0x8000C0EF).cache.window.readByte 10 ::
      (demo 0x20000008 0x8000C0EF).cache.window.readByte 11 :: []) = .ok (.jal 1 12 .backward, []) := by decide

theorem test_witness_RisingWritesAtMostOneRegister :
    (demo 0x20000000 0x00128293).Running ∧ (demo 0x20000000 0x00128293).Inv ∧
    okHas (fun t => t.fault == none) (rising (demo 0x20000000 0x00128293)) = true := by decide

/-- `pc` reaches 0 by wrap (95_test_vectors P6): the null clause of JalTargetIsJudgedAtTheNextRising. -/
def low : State :=
  State.placeWord
    { regs := Vector.replicate 32 0, pc := 0x100, cache := { bottom := 0x100, top := 0x500, index := 0x100, window := [] },
      device := { baseAddress := 0, length := 4096, bytes := [] }, fault := none, freeCount := 0 } 0x8010406F

theorem test_witness_JalTargetIsJudgedAtTheNextRising :
    low.Executes (.jal 0 260 .backward) ∧ nextHas (fun t => t.pc == 0) (step low) = true ∧
    (demo 0x20000000 0x8000806F).Executes (.jal 0 8 .backward) ∧
    nextHas (fun t => t.pc == 0x1FFFFFFC) (step (demo 0x20000000 0x8000806F)) = true := by decide

theorem test_witness_JumpEncodingReachesTheDestination :
    ((0 : Int) = (0x20000004 : Word).toNat - (0x20000000 : Word).toNat - 4 ∧
      (demo 0x20000000 0x0000006F).Executes (.jal 0 (BitVec.ofNat 19 (0 : Int).toNat) .forward)) ∧
    ((524287 : Int) = (0x20080003 : Word).toNat - (0x20000000 : Word).toNat - 4 ∧
      (demo 0x20000000 0x7FFFFFEF).Executes (.jal 31 (BitVec.ofNat 19 (524287 : Int).toNat) .forward)) ∧
    ((-12 : Int) = (0x20000000 : Word).toNat - (0x20000008 : Word).toNat - 4 ∧
      (demo 0x20000008 0x8000C0EF).Executes (.jal 1 (BitVec.ofNat 19 (-(-12) : Int).toNat) .backward)) := by decide

theorem test_witness_HaltedCoreDoesNothing :
    ((demo 0x20000000 0).raise (.cacheMiss 4)).fault = some (.cacheMiss 4) ∧ HostOp.rising.isConstruct = false ∧
    okHas (fun _ => true) (hostApply .rising ((demo 0x20000000 0).raise (.cacheMiss 4))) = true ∧
    dev.HoldsWindow 0x20000C00 ∧ configViolation dev.baseAddress dev.length 0x20000C00 31 = none := by decide

theorem test_witness_FetchFollowsTheSixChecks :
    (demo 0x200003FC 0).cache.Placed ∧
    ((0x200003FC : Word).toNat % 4 = 0 ∧ (0x200003FC : Word) = (demo 0x200003FC 0).cache.index) ∧
    ((0x200003F8 : Word) ≠ (demo 0x200003FC 0).cache.index ∧
      (0x200003F8 : Word).toNat < (demo 0x200003FC 0).cache.top.toNat - 4) ∧
    (demo 0x20000000 0).cache.Placed ∧
    ((0x200003FC : Word) ≠ (demo 0x20000000 0).cache.index ∧
      (0x200003FC : Word).toNat = (demo 0x20000000 0).cache.top.toNat - 4) ∧
    ¬ ((demo 0x20000000 0).cache.bottom.toNat ≤ (0x20000400 : Word).toNat ∧
      (0x20000400 : Word).toNat + 4 ≤ (demo 0x20000000 0).cache.top.toNat) := by decide

/-- FastAndSlowPathAgree and LastWordOffTheCursorMisses. -/
theorem test_witness_FetchPaths :
    (demo 0x20000000 0).cache.Placed ∧ (0x200003F8 : Word).toNat < (demo 0x20000000 0).cache.top.toNat - 4 ∧
    (0x200003FC : Word).toNat % 4 = 0 ∧ (0x200003FC : Word).toNat = (demo 0x20000000 0).cache.top.toNat - 4 ∧
    (0x200003FC : Word) ≠ 0 ∧ (0x200003FC : Word) ≠ (demo 0x20000000 0).cache.index := by decide

/-- The cycle-boundary clause of LastWordOffTheCursorMisses. -/
theorem test_witness_last_word_on_the_cursor :
    (demo 0x200003FC 0).Running ∧ (demo 0x200003FC 0).Inv ∧ (demo 0x200003FC 0).pc.toNat % 4 = 0 ∧
    (demo 0x200003FC 0).pc ≠ 0 ∧ (demo 0x200003FC 0).pc.toNat = (demo 0x200003FC 0).cache.top.toNat - 4 := by decide

/-- The window ends exactly at the device's end. For SequentialFetchesMatchMemoryReads and ResetValues. -/
theorem test_witness_window_fits :
    dev.HoldsWindow 0x20000C00 ∧ (0x20000C00 : Word).toNat + 1024 < 2 ^ 32 ∧ (0x20000C00 : Word).toNat % 4 = 0 ∧
    (0x20000C00 : Word) ≠ 0 ∧ configViolation dev.baseAddress dev.length 0x20000C00 0 = none := by decide

/-- One word too far. For ResetThatDoesNotFitHalts. -/
theorem test_witness_window_does_not_fit :
    ¬ dev.HoldsWindow 0x20000C04 ∧ configViolation dev.baseAddress dev.length 0x20000C04 31 = none := by decide

theorem test_witness_BoundsCheckIsExact :
    dev.inBounds 0x20000FFC = true ∧ dev.inBounds 0x20000FFD = false ∧ dev.inBounds 0x1FFFFFFF = false ∧
    (MemoryDevice.mk 0 3 []).length.toNat < 4 ∧ (MemoryDevice.mk 0xFFFFF000 4096 []).endAddress ≤ 2 ^ 32 ∧
    2 ^ 32 < (0xFFFFFFFD : Word).toNat + 4 := by decide

/-- ReadIsLittleEndian, WriteStoresFourBytesAndNoOther, ReadAfterWriteReturnsTheValue, WriteIsIdempotent,
CanonicalMemoriesAreEqualData, HostAccessErrorsAreTheHostsOwn. -/
theorem test_witness_device_accesses :
    dev.wf = true ∧ dev.inBounds 0x20000000 = true ∧ dev.inBounds 0x20000FFC = true ∧
    (match dev.write 0x20000FFC 0x01000000 with | .ok d => d.wf | .error _ => false) = true ∧
    Memory.wf [(3, 7), (5, 9)] = true ∧ dev.inBounds 0x20000FFD = false ∧
    (demo 0x20000000 0).device.inBounds 0x20000FFD = false ∧
    okHas (fun _ => true) (hostApply (.read 0x20000FFC) (demo 0x20000000 0)) = true ∧
    okHas (fun r => r.1.device.byteAt 0x20000FFF == 1) (hostApply (.write 0x20000FFC 0x01000000) (demo 0x20000000 0)) =
      true := by decide

theorem test_witness_TheHartNeverTouchesTheDevice :
    okHas (fun _ => true) (rising (demo 0x20000000 0x00128293)) = true ∧
    nextHas (fun _ => true) (step (demo 0x20000000 0x00128293)) = true ∧
    faultIs .nullFetch (step (demo 0 0)) = true := by decide

theorem test_witness_ResetDoesNotValidateThePc :
    ((MemoryDevice.mk 0 4096 []).HoldsWindow 0 ∧ configViolation 0 4096 0 2 = none) ∧
    (dev.HoldsWindow 0x20000002 ∧ (0x20000002 : Word).toNat % 4 ≠ 0 ∧
      configViolation dev.baseAddress dev.length 0x20000002 2 = none) ∧
    2 ^ 32 < (MemoryDevice.mk 0xFFFFF000 4097 []).baseAddress.toNat + (MemoryDevice.mk 0xFFFFF000 4097 []).length.toNat ∧
    2 ^ 32 ≤ (0xFFFFFC00 : Word).toNat + 1024 := by decide

/-- The last clause of ResetValues. -/
theorem test_witness_ResetValues_refused : 32 ≤ ({ Config.standard with spIndex := 32 } : Config).spIndex := by decide

theorem test_witness_EveryConstructionMeetsTheInvariant :
    configViolation Config.standard.memBase Config.standard.memLength Config.standard.pcReset Config.standard.spIndex =
      none := by decide

theorem test_witness_EveryStepKeepsTheInvariant :
    (demo 0x20000008 0x8000C0EF).Inv ∧ nextHas (fun _ => true) (step (demo 0x20000008 0x8000C0EF)) = true := by decide

/-- TheWindowIsFrozenUntilTheNextConstruction and HostWritesAreInvisibleToTheHart. -/
theorem test_witness_host_run :
    (∀ op ∈ [HostOp.write 0x20000000 0xFFFFFFFF, .rising, .read 0x20000000, .falling, .observe], op.isConstruct = false) ∧
    okHas (fun t => t.reg 5 == 1 && t.device.byteAt 0x20000000 == 0xFF)
      (hostRun [.write 0x20000000 0xFFFFFFFF, .rising, .read 0x20000000, .falling, .observe]
        (demo 0x20000000 0x00128293)) = true := by decide

end Sys2Proof.Tests
end

/-! ## Proofs: the state after reset, and register 0 (spec 10_state R11, R27, R28) -/

namespace Sys2Proof.Machine

/-! ### Accepted configurations and the words of the window -/

/-- The configurations that R6 accepts. -/
theorem configViolation_eq_none_iff (memBase memLength pcReset : Word) (spIndex : Nat) :
    configViolation memBase memLength pcReset spIndex = none ↔
      memBase.toNat + memLength.toNat ≤ 2 ^ 32 ∧ pcReset.toNat + 1024 < 2 ^ 32 ∧ spIndex < 32 := by
  unfold configViolation
  split
  · simp only [reduceCtorEq, false_iff]; omega
  · split
    · simp only [reduceCtorEq, false_iff]; omega
    · split <;> simp only [reduceCtorEq, false_iff, true_iff] <;> omega

/-- A window that R6 accepts ends without wrapping (R21 (a)). -/
theorem toNat_windowTop {target : Word} (ht : target.toNat + 1024 < 2 ^ 32) :
    (target + 1024).toNat = target.toNat + 1024 := by
  bv_omega

/-- No word address of a window that R6 accepts wraps. -/
theorem toNat_windowWord {target : Word} (ht : target.toNat + 1024 < 2 ^ 32) {j : Nat} (hj : j < 256) :
    (target + BitVec.ofNat 32 (4 * j)).toNat = target.toNat + 4 * j := by
  rw [BitVec.toNat_add, BitVec.toNat_ofNat]; omega

/-- The window fits the device exactly when each of its 256 words is in bounds (R40). -/
theorem MemoryDevice.holdsWindow_iff (d : MemoryDevice) {target : Word} (ht : target.toNat + 1024 < 2 ^ 32) :
    d.HoldsWindow target ↔ ∀ j, j < 256 → d.inBounds (target + BitVec.ofNat 32 (4 * j)) = true := by
  constructor
  · rintro ⟨hlo, hhi⟩ j hj
    rw [MemoryDevice.inBounds_iff, toNat_windowWord ht hj]
    omega
  · intro h
    have hfirst := h 0 (by omega)
    have hlast := h 255 (by omega)
    rw [MemoryDevice.inBounds_iff, toNat_windowWord ht (by omega)] at hfirst hlast
    exact ⟨by omega, by omega⟩

/-! ### What `load` leaves -/

/-- A `load` whose window fits fails nowhere and copies the device's bytes (R40). -/
theorem loadCache_of_holdsWindow (free : Nat) {target : Word} {d : MemoryDevice} (ht : target.toNat + 1024 < 2 ^ 32)
    (h : d.HoldsWindow target) :
    (loadCache free target d).failed = none ∧
      ∀ j, j < 1024 → (loadCache free target d).cache.window.readByte j = d.byteAt (target.toNat + j) := by
  have hwords := (d.holdsWindow_iff ht).mp h
  obtain ⟨window, hcopy, -, hbytes⟩ := copyWords_ok d target ht cacheWords 0 [] rfl (by simp)
    (fun j _ hj => hwords j (by simpa [cacheWords] using hj))
  unfold loadCache
  rw [hcopy]
  exact ⟨rfl, fun j hj => hbytes j (by omega) (by simpa [cacheWords] using hj)⟩

/-- A `load` whose window does not fit fails at the first word out of bounds (R28). -/
theorem loadCache_of_not_holdsWindow (free : Nat) {target : Word} {d : MemoryDevice}
    (ht : target.toNat + 1024 < 2 ^ 32) (h : ¬ d.HoldsWindow target) :
    ∃ k, k < 256 ∧ (loadCache free target d).failed = some ⟨target + BitVec.ofNat 32 (4 * k)⟩ ∧
      d.inBounds (target + BitVec.ofNat 32 (4 * k)) = false ∧
      ∀ j, j < k → d.inBounds (target + BitVec.ofNat 32 (4 * j)) = true := by
  obtain ⟨j, hj, hout⟩ : ∃ j, j < 256 ∧ d.inBounds (target + BitVec.ofNat 32 (4 * j)) = false := by
    simpa [d.holdsWindow_iff ht] using h
  obtain ⟨k, -, hk, hfail, hbefore, hcopy⟩ := copyWords_error d target cacheWords 0 []
    ⟨j, by omega, by simpa [cacheWords] using hj, hout⟩
  refine ⟨k, by simpa [cacheWords] using hk, ?_, hfail, fun i hi => hbefore i (by omega) hi⟩
  unfold loadCache
  rw [hcopy]

/-! ### What construction leaves, whether or not the load failed -/

section Construct

variable (free : Nat) (pcReset spReset : Word) (spIndex : Nat) (d : MemoryDevice)

@[simp] theorem State.construct_pc : (State.construct free pcReset spReset spIndex d).pc = pcReset := rfl

@[simp] theorem State.construct_device : (State.construct free pcReset spReset spIndex d).device = d := rfl

@[simp] theorem State.construct_cache :
    (State.construct free pcReset spReset spIndex d).cache = (loadCache free pcReset d).cache := rfl

@[simp] theorem State.construct_fault :
    (State.construct free pcReset spReset spIndex d).fault =
      (loadCache free pcReset d).failed.map fun e => .outOfBounds e.address := rfl

/-- The register file after reset (R27, D11, D12). -/
theorem State.construct_reg (i : RegIdx) :
    (State.construct free pcReset spReset spIndex d).reg i = if i.val = spIndex then spReset else 0 := by
  simp [State.construct, State.reg, resetRegisters, Vector.getElem_setIfInBounds, eq_comm (a := spIndex)]

/-- The bounds of the window and the cursor after reset, for a window that R6 accepts (R27, R28). -/
theorem State.construct_window (ht : pcReset.toNat + 1024 < 2 ^ 32) :
    (State.construct free pcReset spReset spIndex d).cache.bottom = pcReset ∧
      (State.construct free pcReset spReset spIndex d).cache.top.toNat = pcReset.toNat + 1024 ∧
      (State.construct free pcReset spReset spIndex d).cache.index = pcReset := by
  obtain ⟨hbottom, htop, hindex, -⟩ := loadCache_cache free pcReset d
  rw [State.construct_cache, htop]
  exact ⟨hbottom, toNat_windowTop ht, hindex⟩

end Construct

/-! ### The obligations -/

/-- Settles O48: the registers are those of any construction, and the copy loop reads in bounds throughout. -/
theorem resetValues : Obligations.ResetValues := by
  unfold Obligations.ResetValues
  refine ⟨fun free pcReset spReset spIndex d hcfg hfits => ?_, fun c => ⟨rfl, rfl⟩, fun c hsp => ?_⟩
  · obtain ⟨-, ht, -⟩ := (configViolation_eq_none_iff _ _ _ _).mp hcfg
    obtain ⟨hbottom, htop, hindex⟩ := State.construct_window free pcReset spReset spIndex d ht
    obtain ⟨hfailed, hbytes⟩ := loadCache_of_holdsWindow free ht hfits
    exact ⟨State.construct_reg free pcReset spReset spIndex d, State.construct_pc .., hbottom, htop, hindex, hbytes,
      by simp [hfailed], State.construct_device ..⟩
  · unfold constructCore
    cases hv : configViolation c.memBase c.memLength c.pcReset c.spIndex with
    | some v => exact ⟨v, rfl⟩
    | none =>
      obtain ⟨-, -, hlt⟩ := (configViolation_eq_none_iff _ _ _ _).mp hv
      omega

/-- Settles O49: the copy loop ends in the first word out of bounds, and the fault it latches halts both phases. -/
theorem resetThatDoesNotFitHalts : Obligations.ResetThatDoesNotFitHalts := by
  unfold Obligations.ResetThatDoesNotFitHalts
  intro free pcReset spReset spIndex d hcfg hnot s
  obtain ⟨-, ht, -⟩ := (configViolation_eq_none_iff _ _ _ _).mp hcfg
  obtain ⟨hbottom, htop, hindex⟩ := State.construct_window free pcReset spReset spIndex d ht
  obtain ⟨k, hk, hfailed, hout, hbefore⟩ := loadCache_of_not_holdsWindow free ht hnot
  have hfault : s.fault = some (.outOfBounds (pcReset + BitVec.ofNat 32 (4 * k))) := by simp [s, hfailed]
  exact ⟨k, hk, hfault, hout, hbefore, State.construct_reg free pcReset spReset spIndex d, State.construct_pc ..,
    hbottom, htop, hindex, State.construct_device .., rising_halted hfault, falling_halted hfault⟩

/-- Settles O17: each write goes through `setReg`, which treats every register alike, and reset writes only
`x[SP_INDEX]`. -/
theorem registerZeroIsOrdinary : Obligations.RegisterZeroIsOrdinary := by
  unfold Obligations.RegisterZeroIsOrdinary
  refine ⟨fun s v => s.reg_setReg_same 0 v, fun s imm12 rd => ?addi, fun s imm19 dir => ?jal,
    fun free pcReset spReset spIndex d hsp => ?reset⟩
  case addi => exact ⟨_, rfl, s.reg_setReg_same 0 _⟩
  case jal => exact ⟨_, rfl, s.reg_setReg_same 0 _⟩
  case reset => exact (State.construct_reg free pcReset spReset spIndex d 0).trans (if_neg hsp.symm)

end Sys2Proof.Machine

/-! ## Proofs: the MemoryDevice and the instruction cache (spec 20_memory R30 to R46) -/

namespace Sys2Proof.Machine

/-! ### Stored words -/

/-- Every byte after a word store: a byte of the word at `a .. a+3`, the byte that was there elsewhere (R31, R36). -/
theorem Memory.readByte_writeWord {m : Memory} (h : m.wf = true) (a : Nat) (v : Word) (x : Nat) :
    (m.writeWord a v).readByte x = if a ≤ x ∧ x < a + 4 then byteOfWord v (x - a) else m.readByte x := by
  split
  · next hin =>
    have hx : a + (x - a) = x := by omega
    have := Memory.readByte_writeWord_same h a v (k := x - a) (by omega)
    rwa [hx] at this
  · exact Memory.readByte_writeWord_other m a v (by omega)

/-- Storing the same word again changes no byte, and so not the canonical memory (R37). -/
theorem Memory.writeWord_writeWord_same {m : Memory} (h : m.wf = true) (a : Nat) (v : Word) :
    (m.writeWord a v).writeWord a v = m.writeWord a v := by
  have hw := Memory.writeWord_wf h a v
  refine Memory.ext_of_wf (Memory.writeWord_wf hw a v) hw fun x => ?_
  rw [Memory.readByte_writeWord hw, Memory.readByte_writeWord h]
  split <;> rfl

/-! ### Device accesses, in bounds and out of bounds -/

section Device

variable {d : MemoryDevice} {a v : Word}

theorem MemoryDevice.bytes_wf (h : d.wf = true) : d.bytes.wf = true := by
  simp only [MemoryDevice.wf, Bool.and_eq_true] at h
  exact h.1

theorem MemoryDevice.inBounds_eq_false_iff :
    d.inBounds a = false ↔ ¬ (d.baseAddress.toNat ≤ a.toNat ∧ a.toNat + 4 ≤ d.endAddress) := by
  rw [← MemoryDevice.inBounds_iff, Bool.not_eq_true]

theorem MemoryDevice.write_of_inBounds (h : d.inBounds a = true) (v : Word) :
    d.write a v = .ok { d with bytes := d.bytes.writeWord a.toNat v } := by
  simp [MemoryDevice.write, h]

theorem MemoryDevice.write_of_outOfBounds (h : d.inBounds a = false) (v : Word) :
    d.write a v = .error { address := a } := by
  simp [MemoryDevice.write, h]

/-- The bounds check does not look at the contents. -/
@[simp] theorem MemoryDevice.inBounds_setBytes (d : MemoryDevice) (m : Memory) (a : Word) :
    ({ d with bytes := m } : MemoryDevice).inBounds a = d.inBounds a := rfl

/-- `read` succeeds exactly where the bounds check passes. -/
theorem MemoryDevice.read_ok_iff : (∃ w, d.read a = .ok w) ↔ d.inBounds a = true := by
  cases hb : d.inBounds a with
  | true => simp [MemoryDevice.read_of_inBounds hb]
  | false => simp [MemoryDevice.read_of_outOfBounds hb]

/-- `write` succeeds exactly where the bounds check passes, whatever the value. -/
theorem MemoryDevice.write_ok_iff : (∃ d', d.write a v = .ok d') ↔ d.inBounds a = true := by
  cases hb : d.inBounds a with
  | true => simp [MemoryDevice.write_of_inBounds hb]
  | false => simp [MemoryDevice.write_of_outOfBounds hb]

end Device

/-! ### The host's accesses -/

/-- The host's `read` leaves the state as it is, whether or not the access is in bounds (R30, R112). -/
theorem hostApply_read (s : State) (a : Word) : ∃ reply, hostApply (.read a) s = .ok (s, reply) := by
  cases hr : s.device.read a with
  | ok w => exact ⟨.value w, by simp [hostApply, hr]⟩
  | error e => exact ⟨.outOfBounds e.address, by simp [hostApply, hr]⟩

theorem hostApply_write_ok {s : State} {a v : Word} {d : MemoryDevice} (h : s.device.write a v = .ok d) :
    hostApply (.write a v) s = .ok (s.setDevice d, .done) := by
  simp [hostApply, h]

theorem hostApply_write_error {s : State} {a v : Word} {e : OutOfBounds} (h : s.device.write a v = .error e) :
    hostApply (.write a v) s = .ok (s, .outOfBounds e.address) := by
  simp [hostApply, h]

/-! ### The six checks of `fetch`, one equation each -/

section Fetch

variable {c : InstructionCache} {a : Word}

/-- Check 1 of R41. -/
theorem cacheFetch_of_misaligned (h : a.toNat % 4 ≠ 0) : cacheFetch c a = .error (.misalignedFetch a) :=
  if_pos h

/-- Check 2 of R41. -/
theorem cacheFetch_zero (c : InstructionCache) : cacheFetch c 0 = .error .nullFetch := by
  simp [cacheFetch]

variable (halign : a.toNat % 4 = 0) (hne : a ≠ 0)

include halign hne

/-- Check 3 of R41. -/
theorem cacheFetch_of_not_inWindow (hwin : c.inWindow a = false) : cacheFetch c a = .error (.cacheMiss a) := by
  rw [cacheFetch, if_neg (not_not.mpr halign), if_neg hne, if_pos hwin]

/-- Check 4 of R41, the fast path (R43). -/
theorem cacheFetch_of_eq_index (hwin : c.inWindow a = true) (hidx : a = c.index) :
    cacheFetch c a = .ok (c.wordAt a, c.setIndex (c.advance a)) := by
  rw [cacheFetch, if_neg (not_not.mpr halign), if_neg hne, if_neg (by simp [hwin]), if_pos hidx]

/-- Check 5 of R41, the slow path (R44). -/
theorem cacheFetch_of_lt_last (hwin : c.inWindow a = true) (hidx : a ≠ c.index) (hlt : a.toNat < c.top.toNat - 4) :
    cacheFetch c a = .ok (c.wordAt a, c.setIndex (a + 4)) := by
  rw [cacheFetch, if_neg (not_not.mpr halign), if_neg hne, if_neg (by simp [hwin]), if_neg hidx, if_pos hlt]

/-- Off the cursor and past the slow path's range, inside the window or not, `fetch` misses (check 6 of R41, R46). -/
theorem cacheFetch_of_last_le (hidx : a ≠ c.index) (hlast : c.top.toNat - 4 ≤ a.toNat) :
    cacheFetch c a = .error (.cacheMiss a) := by
  cases hwin : c.inWindow a with
  | false => exact cacheFetch_of_not_inWindow halign hne hwin
  | true =>
    rw [cacheFetch, if_neg (not_not.mpr halign), if_neg hne, if_neg (by simp [hwin]), if_neg hidx,
      if_neg (Nat.not_lt.mpr hlast)]

end Fetch

/-- A `rising` whose fetch delivers a word latches no fault (R81). -/
theorem rising_running_of_fetch_ok {s : State} {w : Word} {c : InstructionCache} (h : s.Running)
    (hf : cacheFetch s.cache s.pc = .ok (w, c)) : ∃ t, rising s = .ok t ∧ t.Running := by
  obtain ⟨t, hexec, -, -, hfault, -⟩ := exec_next (decode w) (s.setCache c)
  exact ⟨t, rising_exec h hf hexec, hfault.trans h⟩

/-! ### The obligations -/

/-- Settles O36: on a placed window check 3 is the bare bounds test, and each clause is one check's equation. -/
theorem fetchFollowsTheSixChecks : Obligations.FetchFollowsTheSixChecks := by
  unfold Obligations.FetchFollowsTheSixChecks
  intro c location hplaced o inside word
  have hwin : c.inWindow location = true ↔ inside := InstructionCache.inWindow_iff hplaced.1 location
  refine ⟨cacheFetch_of_misaligned, ?null, fun halign hne hout => ?outside, fun halign hne hin hidx => ?fast,
    fun halign hne hin hidx hlt => ?slow, fun halign hne _ hidx hlast => ?last⟩
  case null => rintro rfl; exact cacheFetch_zero c
  case outside => exact cacheFetch_of_not_inWindow halign hne (by rwa [← Bool.not_eq_true, hwin])
  case fast => exact cacheFetch_of_eq_index halign hne (hwin.mpr hin) hidx
  case slow => exact cacheFetch_of_lt_last halign hne (hwin.mpr hin) hidx hlt
  case last => exact cacheFetch_of_last_le halign hne hidx hlast.ge

/-- Settles O38: off the cursor no path serves the last word; on a cycle boundary the cursor is `pc`, so the fast path
does. -/
theorem lastWordOffTheCursorMisses : Obligations.LastWordOffTheCursorMisses := by
  unfold Obligations.LastWordOffTheCursorMisses
  refine ⟨fun c location halign hlast hne hidx => cacheFetch_of_last_le halign hne hidx hlast.ge,
    fun s hrun ⟨hplaced, hidx, _⟩ halign hne hlast => ?_⟩
  have hwin : s.cache.inWindow s.pc = true := by
    rw [InstructionCache.inWindow_iff hplaced.1]
    omega
  exact rising_running_of_fetch_ok hrun (cacheFetch_of_eq_index halign hne hwin hidx.symm)

/-- Settles O41: both accesses succeed exactly where the one bounds check passes, and the check is over the naturals. -/
theorem boundsCheckIsExact : Obligations.BoundsCheckIsExact := by
  unfold Obligations.BoundsCheckIsExact
  intro d a v
  have hbounds := d.inBounds_iff a
  refine ⟨MemoryDevice.read_ok_iff.trans hbounds, MemoryDevice.write_ok_iff.trans hbounds, fun hfail => ?fails,
    fun hshort => ?short, fun hfits hwraps => ?wraps⟩
  case fails =>
    have hout : d.inBounds a = false := by
      rw [← Bool.not_eq_true, ← MemoryDevice.read_ok_iff]
      exact fun ⟨w, hw⟩ => hfail w hw
    exact ⟨MemoryDevice.read_of_outOfBounds hout, MemoryDevice.write_of_outOfBounds hout v⟩
  case short =>
    refine MemoryDevice.read_of_outOfBounds (MemoryDevice.inBounds_eq_false_iff.mpr ?_)
    unfold MemoryDevice.endAddress
    omega
  case wraps =>
    refine MemoryDevice.read_of_outOfBounds (MemoryDevice.inBounds_eq_false_iff.mpr ?_)
    omega

/-- Settles O42: a `read` in bounds is `readWord`, whose definition is the four bytes in little-endian order. -/
theorem readIsLittleEndian : Obligations.ReadIsLittleEndian := by
  unfold Obligations.ReadIsLittleEndian
  exact ⟨fun d a => ⟨fun hin => ⟨_, MemoryDevice.read_of_inBounds hin, rfl⟩, MemoryDevice.read_of_outOfBounds⟩,
    hostApply_read⟩

/-- Settles O43: the bytes after a `write` are those after the word store it makes. -/
theorem writeStoresFourBytesAndNoOther : Obligations.WriteStoresFourBytesAndNoOther := by
  unfold Obligations.WriteStoresFourBytesAndNoOther
  refine ⟨fun d a v hwf hin => ?stores, fun s a v hout => ?fails, fun s a v d hwrite => hostApply_write_ok hwrite⟩
  case stores =>
    have hbyte : ∀ k, k < 4 → (d.bytes.writeWord a.toNat v).readByte (a.toNat + k) = byteOfWord v k :=
      fun k => Memory.readByte_writeWord_same (MemoryDevice.bytes_wf hwf) a.toNat v
    exact ⟨_, MemoryDevice.write_of_inBounds hin v, rfl, rfl, hbyte 0 (by omega), hbyte 1 (by omega),
      hbyte 2 (by omega), hbyte 3 (by omega), fun x => Memory.readByte_writeWord_other d.bytes a.toNat v⟩
  case fails =>
    have hwrite := MemoryDevice.write_of_outOfBounds hout v
    exact ⟨hwrite, MemoryDevice.read_of_outOfBounds hout, hostApply_write_error hwrite⟩

/-- Settles O44: the word store reads back, and byte `k` of a read at `b` is the byte at `b + k`. -/
theorem readAfterWriteReturnsTheValue : Obligations.ReadAfterWriteReturnsTheValue := by
  unfold Obligations.ReadAfterWriteReturnsTheValue
  intro d a v hwf hin
  have hbytes := MemoryDevice.bytes_wf hwf
  refine ⟨_, MemoryDevice.write_of_inBounds hin v, ?same, fun b hb => ⟨_, MemoryDevice.read_of_inBounds hb, ?bytes⟩⟩
  case same =>
    rw [MemoryDevice.read_of_inBounds (by simpa using hin), Memory.readWord_writeWord hbytes]
  case bytes =>
    intro k hk
    rw [byteOfWord_readWord _ _ hk, Memory.readByte_writeWord hbytes]
    rfl

/-- Settles O45: the second store changes no byte of the canonical contents; a `read` leaves the host's state alone. -/
theorem writeIsIdempotent : Obligations.WriteIsIdempotent := by
  unfold Obligations.WriteIsIdempotent
  refine ⟨fun d d' a v hwf hwrite => ?write, fun s t a reply hread => ?read⟩
  case write =>
    obtain ⟨hin, rfl⟩ := MemoryDevice.write_cases hwrite
    rw [MemoryDevice.write_of_inBounds (by simpa using hin),
      Memory.writeWord_writeWord_same (MemoryDevice.bytes_wf hwf)]
  case read =>
    obtain ⟨_, hstate⟩ := hostApply_read s a
    obtain rfl : t = s := by
      rw [hread] at hstate
      cases hstate
      rfl
    exact ⟨rfl, hread⟩

end Sys2Proof.Machine

/-! ## Proofs: the layouts, the dispatch and the immediates (spec 30_encoding R61 to R68) -/

namespace Sys2Proof

/-! ### The layouts: word and view determine each other (R61, R62)

Each field begins where the one before it ends, so the fields of a word join to the whole word; a field of a word made
of fields is found by passing over the lower fields (`extractLsb'_append_eq_of_le`) and taking the lowest one left. -/

/-- The R-type fields of a word, put together again, are the word. -/
@[simp] theorem wordOfRType_rTypeOfWord (w : Word) : wordOfRType (rTypeOfWord w) = w := by
  simp (disch := decide) only [wordOfRType, rTypeOfWord, BitVec.extractLsb'_append_extractLsb'_eq_extractLsb']
  exact BitVec.extractLsb'_eq_self

/-- The I-type fields of a word, put together again, are the word. -/
@[simp] theorem wordOfIType_iTypeOfWord (w : Word) : wordOfIType (iTypeOfWord w) = w := by
  simp (disch := decide) only [wordOfIType, iTypeOfWord, BitVec.extractLsb'_append_extractLsb'_eq_extractLsb']
  exact BitVec.extractLsb'_eq_self

/-- The J-type fields of a word, put together again, are the word. -/
@[simp] theorem wordOfJType_jTypeOfWord (w : Word) : wordOfJType (jTypeOfWord w) = w := by
  simp (disch := decide) only [wordOfJType, jTypeOfWord, BitVec.extractLsb'_append_extractLsb'_eq_extractLsb']
  exact BitVec.extractLsb'_eq_self

/-- Each field of an R-type view is read back from its place in the word. -/
@[simp] theorem rTypeOfWord_wordOfRType (v : RType) : rTypeOfWord (wordOfRType v) = v := by
  simp (disch := decide) only [rTypeOfWord, wordOfRType, BitVec.extractLsb'_append_eq_of_le,
    BitVec.extractLsb'_append_eq_right, BitVec.extractLsb'_eq_self, Nat.reduceSub]

/-- Each field of an I-type view is read back from its place in the word. -/
@[simp] theorem iTypeOfWord_wordOfIType (v : IType) : iTypeOfWord (wordOfIType v) = v := by
  simp (disch := decide) only [iTypeOfWord, wordOfIType, BitVec.extractLsb'_append_eq_of_le,
    BitVec.extractLsb'_append_eq_right, BitVec.extractLsb'_eq_self, Nat.reduceSub]

/-- Each field of a J-type view is read back from its place in the word. -/
@[simp] theorem jTypeOfWord_wordOfJType (v : JType) : jTypeOfWord (wordOfJType v) = v := by
  simp (disch := decide) only [jTypeOfWord, wordOfJType, BitVec.extractLsb'_append_eq_of_le,
    BitVec.extractLsb'_append_eq_right, BitVec.extractLsb'_eq_self, Nat.reduceSub]

/-! ### Decode, one equation per branch of R68 -/

section Decode

variable {w : Word}

theorem decode_of_jal_op (hop : w.extractLsb' 0 7 = 0b1101111) :
    decode w = .jal (regOfField (w.extractLsb' 7 5)) (w.extractLsb' 12 19) (dirOfField (w.extractLsb' 31 1)) := by
  obtain ⟨-, hdec⟩ | ⟨⟨haddi, -⟩, -⟩ | ⟨hne, -⟩ := decode_cases w
  · exact hdec
  · exact absurd (hop.symm.trans haddi) (by decide)
  · exact absurd hop hne

theorem decode_of_addi_op (hop : w.extractLsb' 0 7 = 0b0010011) (hf3 : w.extractLsb' 12 3 = 0b000) :
    decode w = .addi (regOfField (w.extractLsb' 15 5)) (w.extractLsb' 20 12) (regOfField (w.extractLsb' 7 5)) := by
  obtain ⟨hjal, -⟩ | ⟨-, hdec⟩ | ⟨-, hne, -⟩ := decode_cases w
  · exact absurd (hop.symm.trans hjal) (by decide)
  · exact hdec
  · exact absurd ⟨hop, hf3⟩ hne

theorem decode_of_neither_op (hjal : w.extractLsb' 0 7 ≠ 0b1101111)
    (haddi : ¬ (w.extractLsb' 0 7 = 0b0010011 ∧ w.extractLsb' 12 3 = 0b000)) : decode w = .unrecognised w := by
  obtain ⟨h, -⟩ | ⟨h, -⟩ | ⟨-, -, hdec⟩ := decode_cases w
  · exact absurd h hjal
  · exact absurd h haddi
  · exact hdec

/-- Outside the J-type format no word has the `JAL` opcode (R63). -/
theorem op_ne_jal_of_low3 (hlow : w.extractLsb' 0 3 ≠ 0b111) : w.extractLsb' 0 7 ≠ 0b1101111 := fun hop =>
  hlow ((formatOfWord_of_op hop).trans (by decide))

/-- Outside the I-type format no word has the `ADDI` opcode (R63). -/
theorem op_ne_addi_of_low3 (hlow : w.extractLsb' 0 3 ≠ 0b011) : w.extractLsb' 0 7 ≠ 0b0010011 := fun hop =>
  hlow ((formatOfWord_of_op hop).trans (by decide))

/-- Where the immediate of an `ADDI` stands in its word (R64). -/
theorem imm_of_decode_eq_addi {rs1 : RegIdx} {imm12 : BitVec 12} {rd : RegIdx} (h : decode w = .addi rs1 imm12 rd) :
    imm12 = w.extractLsb' 20 12 := by
  obtain ⟨-, hdec⟩ | ⟨-, hdec⟩ | ⟨-, -, hdec⟩ := decode_cases w <;> cases hdec.symm.trans h
  rfl

/-- Where the magnitude and the direction of a `JAL` stand in its word (R65). -/
theorem imm_dir_of_decode_eq_jal {rd : RegIdx} {imm19 : BitVec 19} {dir : Direction}
    (h : decode w = .jal rd imm19 dir) :
    imm19 = w.extractLsb' 12 19 ∧ dir = dirOfField (w.extractLsb' 31 1) := by
  obtain ⟨-, hdec⟩ | ⟨-, hdec⟩ | ⟨-, -, hdec⟩ := decode_cases w <;> cases hdec.symm.trans h
  exact ⟨rfl, rfl⟩

end Decode

theorem dirOfField_eq_backward_iff (f : BitVec 1) : dirOfField f = .backward ↔ f = 1 := by
  unfold dirOfField
  split
  · next h => exact iff_of_true rfl h
  · next h => exact iff_of_false (by decide) h

end Sys2Proof

namespace Sys2Proof.Machine

/-! ### The immediates as operands (R64, R65) -/

/-- The I-type immediate is its own unsigned value (R64). -/
@[simp] theorem immI_toNat (imm12 : BitVec 12) : (immI imm12).toNat = imm12.toNat :=
  BitVec.toNat_setWidth_of_le (by decide)

/-- The J-type magnitude is its own unsigned value (R65). -/
@[simp] theorem immJ_toNat (imm19 : BitVec 19) : (immJ imm19).toNat = imm19.toNat :=
  BitVec.toNat_setWidth_of_le (by decide)

/-- A forward jump adds the magnitude modulo `2^32` (R65). -/
theorem jumpValue_forward_toNat (pc : Word) (imm19 : BitVec 19) :
    (jumpValue pc imm19 .forward).toNat = (pc.toNat + imm19.toNat) % 2 ^ 32 := by
  simp [jumpValue]

/-- Adding the magnitude to the target of a backward jump gives `pc` again: it was subtracted modulo `2^32` (R65). -/
theorem jumpValue_backward_add_toNat (pc : Word) (imm19 : BitVec 19) :
    ((jumpValue pc imm19 .backward).toNat + imm19.toNat) % 2 ^ 32 = pc.toNat := by
  rw [← immJ_toNat, ← BitVec.toNat_add]
  exact congrArg BitVec.toNat (BitVec.sub_add_cancel pc (immJ imm19))

/-- Both encodings of a zero offset leave `pc` where it is (R65). -/
theorem jumpValue_zero (pc : Word) (dir : Direction) : jumpValue pc 0 dir = pc := by
  cases dir with
  | forward => exact BitVec.add_zero pc
  | backward => exact BitVec.sub_zero pc

/-! ### The obligations -/

/-- Settles O8: each field list covers the word from bit 0 upward, without a gap or an overlap. -/
theorem layoutsAreViewsOfTheSameBits : Obligations.LayoutsAreViewsOfTheSameBits := by
  unfold Obligations.LayoutsAreViewsOfTheSameBits
  exact ⟨fun w => ⟨wordOfRType_rTypeOfWord w, wordOfIType_iTypeOfWord w, wordOfJType_jTypeOfWord w⟩,
    rTypeOfWord_wordOfRType, iTypeOfWord_wordOfIType, jTypeOfWord_wordOfJType, fun w => ⟨rfl, rfl, rfl⟩⟩

/-- Settles O2: the low three bits are part of the opcode, so each format admits one of the two opcodes at most. -/
theorem decodeIsTheSpecDispatch : Obligations.DecodeIsTheSpecDispatch := by
  unfold Obligations.DecodeIsTheSpecDispatch
  refine ⟨fun w s => rfl, fun w => ⟨fun hlow => ⟨fun hop => decode_of_jal_op hop, fun hop => ?notJal⟩,
    fun hlow => ⟨fun ⟨hf3, hop⟩ => decode_of_addi_op hop hf3, fun hne => ?notAddi⟩, fun ⟨hj, hi⟩ => ?noView⟩⟩
  case notJal =>
    have hlow3 : w.extractLsb' 0 3 ≠ 0b011 := fun h => absurd (hlow.symm.trans h) (by decide)
    exact decode_of_neither_op hop fun haddi => op_ne_addi_of_low3 hlow3 haddi.1
  case notAddi =>
    have hlow3 : w.extractLsb' 0 3 ≠ 0b111 := fun h => absurd (hlow.symm.trans h) (by decide)
    exact decode_of_neither_op (op_ne_jal_of_low3 hlow3) fun haddi => hne haddi.symm
  case noView => exact decode_of_neither_op (op_ne_jal_of_low3 hj) fun haddi => op_ne_addi_of_low3 hi haddi.1

/-- Settles O18: decode takes the fields in place, and both immediates are zero-extended before they are used. -/
theorem immediatesAreUnsignedAndUnscaled : Obligations.ImmediatesAreUnsignedAndUnscaled := by
  unfold Obligations.ImmediatesAreUnsignedAndUnscaled
  refine ⟨fun w rs1 imm12 rd hdec => imm_of_decode_eq_addi hdec, fun w rd imm19 dir hdec => ?jal, fun imm12 => ?immI,
    fun imm19 => ⟨immJ_toNat imm19, ?immJ⟩,
    fun pc imm19 => ⟨jumpValue_forward_toNat pc imm19, jumpValue_backward_add_toNat pc imm19⟩, jumpValue_zero,
    fun pc => rfl⟩
  case jal =>
    obtain ⟨himm, rfl⟩ := imm_dir_of_decode_eq_jal hdec
    exact ⟨himm, dirOfField_eq_backward_iff _⟩
  case immI =>
    rw [immI_toNat]
    exact ⟨rfl, Nat.le_of_lt_succ imm12.isLt, BitVec.le_toNat_of_msb_true⟩
  case immJ =>
    rw [immJ_toNat]
    exact Nat.le_of_lt_succ imm19.isLt

end Sys2Proof.Machine

/-! ## Proofs: `falling` and the host's observation (spec 40_cycle R82, R86) -/

namespace Sys2Proof.Machine

/-! ### The fields of `falling`, beside those of the support laws (R82) -/

theorem falling_pc {s : State} (h : s.Running) : (falling s).pc = s.pc + 4 := by
  rw [falling_running h]; rfl

theorem falling_cache {s : State} (h : s.Running) : (falling s).cache = s.cache.setIndex (s.pc + 4) := by
  rw [falling_running h]; rfl

@[simp] theorem falling_reg (s : State) (r : RegIdx) : (falling s).reg r = s.reg r :=
  congrArg (fun regs : Vector Word 32 => regs[r]) (falling_regs s)

@[simp] theorem falling_freeCount (s : State) : (falling s).freeCount = s.freeCount := by
  cases h : s.fault with
  | some f => rw [falling_halted h]
  | none => rw [falling_running h]; rfl

/-! ### What the host's observation holds, a field each (R86) -/

section Observe

variable (s : State)

@[simp] theorem State.observe_regs : s.observe.regs = s.regs := rfl
@[simp] theorem State.observe_pc : s.observe.pc = s.pc := rfl
@[simp] theorem State.observe_bottom : s.observe.bottom = s.cache.bottom := rfl
@[simp] theorem State.observe_top : s.observe.top = s.cache.top := rfl
@[simp] theorem State.observe_index : s.observe.index = s.cache.index := rfl
@[simp] theorem State.observe_window : s.observe.window = s.cache.window := rfl
@[simp] theorem State.observe_fault : s.observe.fault = s.fault := rfl

/-- The host's observation answers the state it was given (R86). -/
@[simp] theorem hostApply_observe : hostApply .observe s = .ok (s, .observation s.observe) := rfl

end Observe

/-! ### The obligations -/

/-- Settles O24: a running core's `falling` is one write of `pc` and one of the cursor, whatever `pc` is; a
halted core's is the identity. -/
theorem fallingAddsFourUnconditionally : Obligations.FallingAddsFourUnconditionally := by
  unfold Obligations.FallingAddsFourUnconditionally
  refine fun s => ⟨fun hrun => ?running, fun hhalt => ?halted⟩
  case running =>
    exact ⟨falling_pc hrun, falling_cache hrun, falling_reg s, falling_device s, (falling_fault s).trans hrun,
      falling_freeCount s⟩
  case halted =>
    obtain ⟨f, hf⟩ := Option.ne_none_iff_exists'.mp hhalt
    exact falling_halted hf

/-- Settles O56: the reply is `State.observe` of the state, and the state answered is the one observed. -/
theorem observationChangesNothing : Obligations.ObservationChangesNothing := by
  unfold Obligations.ObservationChangesNothing
  exact fun s => ⟨s.observe, hostApply_observe s, s.observe_regs, s.observe_pc, s.observe_bottom, s.observe_top,
    s.observe_index, s.observe_window, s.observe_fault⟩

end Sys2Proof.Machine

/-! ## Proofs: jump-and-link and the cycle it runs in (spec 41_jump_and_link R90 to R93; 40_cycle R81) -/

namespace Sys2Proof.Machine

/-! ### The jump value (R90, R91) -/

/-- A backward jump past address 0 wraps once (R91). -/
theorem jumpValue_backward_toNat (pc : Word) (imm19 : BitVec 19) :
    (jumpValue pc imm19 .backward).toNat =
      if imm19.toNat ≤ pc.toNat then pc.toNat - imm19.toNat else pc.toNat + 2 ^ 32 - imm19.toNat := by
  have hadd := jumpValue_backward_add_toNat pc imm19
  have hpc := pc.isLt
  have himm := imm19.isLt
  split <;> omega

theorem linkValue_toNat (pc : Word) : (linkValue pc).toNat = (pc.toNat + 4) % 2 ^ 32 :=
  BitVec.toNat_add pc 4

/-- The 4 that `falling` adds does not change an address modulo 4. -/
theorem toNat_add_four_mod_four (a : Word) : (a + 4).toNat % 4 = a.toNat % 4 := by
  have hadd : (a + 4).toNat = (a.toNat + 4) % 2 ^ 32 := linkValue_toNat a
  omega

/-- From an aligned `pc` the unscaled offset alone decides alignment: 4 divides `2^32`, so no wrap disturbs it. -/
theorem jumpValue_aligned_iff {pc : Word} (halign : pc.toNat % 4 = 0) (imm19 : BitVec 19) (dir : Direction) :
    (jumpValue pc imm19 dir).toNat % 4 = 0 ↔ imm19.toNat % 4 = 0 := by
  cases dir with
  | forward =>
    have hadd := jumpValue_forward_toNat pc imm19
    omega
  | backward =>
    have hadd := jumpValue_backward_add_toNat pc imm19
    omega

/-! ### The instruction on every state (R90) -/

/-- Everything `JAL` does: the two writes, and the rest of the state as it was. -/
theorem exec_jal (rd : RegIdx) (imm19 : BitVec 19) (dir : Direction) (s : State) :
    ∃ t, exec (.jal rd imm19 dir) s = .next t ∧ t.reg rd = linkValue s.pc ∧ t.pc = jumpValue s.pc imm19 dir ∧
      (∀ r, r ≠ rd → t.reg r = s.reg r) ∧ t.cache = s.cache ∧ t.device = s.device ∧ t.fault = s.fault ∧
      t.freeCount = s.freeCount :=
  ⟨(s.setReg rd (linkValue s.pc)).setPc (jumpValue s.pc imm19 dir), rfl, s.reg_setReg_same rd _, rfl,
    fun _ hne => s.reg_setReg_other hne _, rfl, rfl, rfl, rfl⟩

/-- The words of the `JAL` row, with their operands (R67, R90). -/
theorem decode_of_jalRow {w : Word} (h : jalRow.holds w = true) :
    decode w = .jal (regOfField (w.extractLsb' 7 5)) (w.extractLsb' 12 19) (dirOfField (w.extractLsb' 31 1)) :=
  decode_of_jal_op ((jalRow_holds_iff w).mp h)

/-! ### The fetch on a cycle boundary, where the cursor is `pc` (R21 (c), R41, R84) -/

/-- The state on which the instruction of a `rising` acts: the fetch has moved the cursor, and nothing else (R81). -/
def State.fetched (s : State) : State := s.setCache (s.cache.setIndex (s.cache.advance s.pc))

section Boundary

variable {s : State}

theorem cacheFetch_of_fetchable (hinv : s.Inv) (hfetch : s.Fetchable) :
    cacheFetch s.cache s.pc = .ok (s.cache.wordAt s.pc, s.fetched.cache) := by
  obtain ⟨⟨hplaced, -⟩, hidx, -⟩ := hinv
  obtain ⟨halign, hne, hwindow⟩ := hfetch
  exact cacheFetch_of_eq_index halign hne ((InstructionCache.inWindow_iff hplaced s.pc).mpr hwindow) hidx.symm

theorem rising_of_executes {i : Instr} {u : State} (h : s.Executes i) (hexec : exec i s.fetched = .next u) :
    rising s = .ok u := by
  obtain ⟨hrun, hinv, hfetch, rfl⟩ := h
  exact rising_exec hrun (cacheFetch_of_fetchable hinv hfetch) hexec

theorem step_of_executes {i : Instr} {u : State} (h : s.Executes i) (hexec : exec i s.fetched = .next u) :
    step s = .next (falling u) := by
  obtain ⟨hrun, hinv, hfetch, rfl⟩ := h
  exact (step_exec hrun (cacheFetch_of_fetchable hinv hfetch) hexec).1

/-- `falling` brings the cursor back to `pc`, whatever `rising` left there (R21 (c), R82). -/
theorem falling_inv (hrun : s.Running) (hcache : s.cache.Placed) (hdev : s.device.Placed) : (falling s).Inv := by
  rw [falling_running hrun]
  exact ⟨hcache, rfl, hdev⟩

/-! ### How the next `rising` judges `pc` (R84, R113) -/

theorem rising_of_misaligned (hrun : s.Running) (h : s.pc.toNat % 4 ≠ 0) :
    rising s = .ok (s.raise (.misalignedFetch s.pc)) :=
  rising_raise hrun (cacheFetch_of_misaligned h)

theorem rising_of_null (hrun : s.Running) (h : s.pc = 0) : rising s = .ok (s.raise .nullFetch) := by
  refine rising_raise hrun ?_
  rw [h]
  exact cacheFetch_zero s.cache

theorem rising_of_outside (hrun : s.Running) (hplaced : s.cache.Placed) (halign : s.pc.toNat % 4 = 0) (hne : s.pc ≠ 0)
    (hout : ¬ (s.cache.bottom.toNat ≤ s.pc.toNat ∧ s.pc.toNat + 4 ≤ s.cache.top.toNat)) :
    rising s = .ok (s.raise (.cacheMiss s.pc)) := by
  rw [← InstructionCache.inWindow_iff hplaced.1, Bool.not_eq_true] at hout
  exact rising_raise hrun (cacheFetch_of_not_inWindow halign hne hout)

theorem rising_of_fetchable (hrun : s.Running) (hinv : s.Inv) (hfetch : s.Fetchable) :
    ∃ u, rising s = .ok u ∧ u.Running :=
  rising_running_of_fetch_ok hrun (cacheFetch_of_fetchable hinv hfetch)

end Boundary

/-! ### The obligations -/

/-- Settles O12: the two writes and the frame are `exec_jal`, and each written value is read as a natural number. -/
theorem jalLinksAndMovesThePc : Obligations.JalLinksAndMovesThePc := by
  unfold Obligations.JalLinksAndMovesThePc
  intro rd imm19 dir s
  obtain ⟨t, hexec, hlink, hpc, hframe⟩ := exec_jal rd imm19 dir s
  refine ⟨t, hexec, ?link, ?pc, hframe⟩
  case link => rw [hlink, linkValue_toNat]
  case pc =>
    rw [hpc]
    cases dir with
    | forward => exact jumpValue_forward_toNat s.pc imm19
    | backward => exact jumpValue_backward_toNat s.pc imm19

/-- Settles O29: the cycle of a `JAL` ends on a cycle boundary with the window where it was, whatever the target, so
only the next `rising` judges it. -/
theorem jalTargetIsJudgedAtTheNextRising : Obligations.JalTargetIsJudgedAtTheNextRising := by
  unfold Obligations.JalTargetIsJudgedAtTheNextRising
  refine ⟨fun w hrow => decode_of_jalRow (beq_iff_eq.mpr hrow), fun s rd imm19 dir hjal => ?_⟩
  have ⟨hrun, ⟨hplaced, _, hdevice⟩, ⟨halign, _⟩, _⟩ := hjal
  obtain ⟨r, hexec, hlink, hpc, hother, hcache, hdev, hfault, -⟩ := exec_jal rd imm19 dir s.fetched
  have hr : r.Running := hfault.trans hrun
  have ht : (falling r).Running := (falling_fault r).trans hr
  have hinv : (falling r).Inv := falling_inv hr (by rw [hcache]; exact hplaced) (by rw [hdev]; exact hdevice)
  have ⟨hbottom, htop⟩ : (falling r).cache.bottom = s.cache.bottom ∧ (falling r).cache.top = s.cache.top := by
    rw [falling_cache hr, hcache]
    exact ⟨rfl, rfl⟩
  have htpc : (falling r).pc = jumpValue s.pc imm19 dir + 4 := by
    rw [falling_pc hr, hpc]
    rfl
  refine ⟨r, falling r, rising_of_executes hjal hexec, hlink, hother, ?pc, step_of_executes hjal hexec,
    falling_pc hr, falling_reg r, ?zero, ?aligned, rising_of_misaligned ht, rising_of_null ht, ?miss,
    rising_of_fetchable ht hinv⟩
  case pc =>
    rw [hpc]
    cases dir <;> rfl
  case zero =>
    rintro rfl
    rw [htpc, jumpValue_zero]
  case aligned =>
    rw [htpc, toNat_add_four_mod_four]
    exact not_congr (jumpValue_aligned_iff halign imm19 dir)
  case miss =>
    rw [← hbottom, ← htop]
    intro halign' hne hout
    obtain ⟨hplaced', -⟩ := hinv
    have ⟨hsize, _⟩ := hplaced'
    exact rising_of_outside ht hplaced' halign' hne (by omega)

end Sys2Proof.Machine

/-! ## Proofs: add-immediate and the words beside it (spec 42_add_immediate R95 to R97) -/

namespace Sys2Proof.Machine

/-! ### The words of the `ADDI` row and beside it (R67, R97) -/

/-- The words of the `ADDI` row, with their operands (R67, R95). -/
theorem decode_of_addiRow {w : Word} (h : addiRow.holds w = true) :
    decode w = .addi (regOfField (w.extractLsb' 15 5)) (w.extractLsb' 20 12) (regOfField (w.extractLsb' 7 5)) :=
  have ⟨hop, hfunct3⟩ := (addiRow_holds_iff w).mp h
  decode_of_addi_op hop hfunct3

/-- Bits `[6:3]` of a word whose opcode field is known, as `formatOfWord_of_op` gives bits `[2:0]`. -/
theorem bits6_3_of_op {w : Word} {op : BitVec 7} (h : w.extractLsb' 0 7 = op) :
    w.extractLsb' 3 4 = op.extractLsb' 3 4 := by
  subst h
  refine BitVec.eq_of_getLsbD_eq fun i hi => ?_
  simp [hi]

/-- A word with other bits above its format than `0b0010` does not have the `ADDI` opcode (R67). -/
theorem op_ne_addi_of_bits6_3 {w : Word} (hbits : w.extractLsb' 3 4 ≠ 0b0010) : w.extractLsb' 0 7 ≠ 0b0010011 :=
  fun hop => hbits ((bits6_3_of_op hop).trans (by decide))

/-! ### The instruction on every state (R95) -/

/-- Everything `ADDI` does: one sum into `x[rs1]`, and the rest of the state as it was. -/
theorem exec_addi (rs1 : RegIdx) (imm12 : BitVec 12) (rd : RegIdx) (s : State) :
    ∃ t, exec (.addi rs1 imm12 rd) s = .next t ∧ t.reg rs1 = s.reg rs1 + immI imm12 ∧
      (∀ r, r ≠ rs1 → t.reg r = s.reg r) ∧ t.pc = s.pc ∧ t.cache = s.cache ∧ t.device = s.device ∧
      t.fault = s.fault ∧ t.freeCount = s.freeCount :=
  ⟨s.setReg rs1 (s.reg rs1 + immI imm12), rfl, s.reg_setReg_same rs1 _, fun _ hne => s.reg_setReg_other hne _, rfl,
    rfl, rfl, rfl, rfl⟩

/-- The field `rd` selects nothing (R95). -/
theorem exec_addi_ignores_rd (rs1 : RegIdx) (imm12 : BitVec 12) (rd rd' : RegIdx) (s : State) :
    exec (.addi rs1 imm12 rd') s = exec (.addi rs1 imm12 rd) s := rfl

/-! ### The obligations -/

/-- Settles O9: no word of either class has the `JAL` opcode; the first class fails the `funct3` part of the `ADDI`
test, the second its opcode part. -/
theorem otherImmediateWordsAreUnrecognised : Obligations.OtherImmediateWordsAreUnrecognised := by
  unfold Obligations.OtherImmediateWordsAreUnrecognised
  refine fun w => ⟨fun hop hfunct3 => ?funct3, fun hlow hbits => ?opcode⟩
  case funct3 =>
    have hjal : w.extractLsb' 0 7 ≠ 0b1101111 := fun h => absurd (hop.symm.trans h) (by decide)
    exact decode_of_neither_op hjal fun haddi => hfunct3 haddi.2
  case opcode =>
    have hlow3 : w.extractLsb' 0 3 ≠ 0b111 := fun h => absurd (hlow.symm.trans h) (by decide)
    exact decode_of_neither_op (op_ne_jal_of_low3 hlow3) fun haddi => op_ne_addi_of_bits6_3 hbits haddi.1

/-- Settles O13: the sum and the frame are `exec_addi`; on a cycle boundary it acts on the state whose fetch has moved
the cursor only, and `falling` then adds the 4 to a `pc` that `rising` has not written. -/
theorem addiAddsIntoTheSourceRegister : Obligations.AddiAddsIntoTheSourceRegister := by
  unfold Obligations.AddiAddsIntoTheSourceRegister
  refine ⟨fun w hrow => decode_of_addiRow (beq_iff_eq.mpr hrow),
    fun rs1 imm12 rd s => ⟨?exec, fun rd' => exec_addi_ignores_rd rs1 imm12 rd rd' s⟩,
    fun s rs1 imm12 rd haddi => ?cycle⟩
  case exec =>
    obtain ⟨t, hexec, hsum, hframe⟩ := exec_addi rs1 imm12 rd s
    refine ⟨t, hexec, ?_, hframe⟩
    rw [hsum, BitVec.toNat_add, immI_toNat]
  case cycle =>
    obtain ⟨r, hexec, hsum, hother, hpc, -, -, hfault, -⟩ := exec_addi rs1 imm12 rd s.fetched
    have ⟨hrun, _⟩ := haddi
    have hr : r.Running := hfault.trans hrun
    have htpc : (falling r).pc = s.pc + 4 := by
      rw [falling_pc hr, hpc]
      rfl
    exact ⟨r, falling r, rising_of_executes haddi hexec, hpc, hsum, hother, step_of_executes haddi hexec, htpc,
      falling_reg r⟩

end Sys2Proof.Machine

/-! ## Proofs: every other word (spec 43_unrecognised R100) -/

namespace Sys2Proof.Machine

/-- An unrecognised word answers the very state it is executed on (R100). -/
theorem exec_unrecognised (w : Word) (s : State) : exec (.unrecognised w) s = .next s := rfl

/-- `falling` overwrites the cursor that the fetch moved, so nothing of the fetch is left after it (R82). -/
theorem falling_fetched {s : State} (h : s.Running) :
    falling s.fetched = (s.setPc (s.pc + 4)).setCache (s.cache.setIndex (s.pc + 4)) :=
  falling_running (s := s.fetched) h

/-- Settles O14: the words are those outside both rows of the decoder; since executing one changes nothing, `rising`
leaves what its fetch left, and `falling` ends the cycle from there. -/
theorem unrecognisedWordsAreSilentNoOps : Obligations.UnrecognisedWordsAreSilentNoOps := by
  unfold Obligations.UnrecognisedWordsAreSilentNoOps
  refine ⟨fun w hjal haddi => decode_of_neither_op hjal haddi, exec_unrecognised, fun w s hnop => ?cycle⟩
  have hexec := exec_unrecognised w s.fetched
  have ⟨hrun, _⟩ := hnop
  have hrising : rising s = .ok s.fetched := rising_of_executes hnop hexec
  have hstep : step s = .next (falling s.fetched) := step_of_executes hnop hexec
  exact ⟨hrising, hstep.trans (congrArg _ (falling_fetched hrun))⟩

end Sys2Proof.Machine

/-! ## Proofs: the faults (spec 60_exceptions R111 to R114) -/

namespace Sys2Proof.Machine

/-! ### The codes and the recorded values, one equation for each fault (R111) -/

section Codes

variable (a : Word)

@[simp] theorem Fault.code_outOfBounds : (Fault.outOfBounds a).code = 1 := rfl
@[simp] theorem Fault.code_misalignedFetch : (Fault.misalignedFetch a).code = 2 := rfl
@[simp] theorem Fault.code_nullFetch : Fault.nullFetch.code = 3 := rfl
@[simp] theorem Fault.code_cacheMiss : (Fault.cacheMiss a).code = 4 := rfl

@[simp] theorem Fault.address_outOfBounds : (Fault.outOfBounds a).address = a := rfl
@[simp] theorem Fault.address_misalignedFetch : (Fault.misalignedFetch a).address = a := rfl
@[simp] theorem Fault.address_nullFetch : Fault.nullFetch.address = 0 := rfl
@[simp] theorem Fault.address_cacheMiss : (Fault.cacheMiss a).address = a := rfl

end Codes

/-! ### The faults that `fetch` raises (R41, R113) -/

section Fetch

variable {c : InstructionCache} {a : Word} {f : Fault}

/-- The window test passes only between the bounds, wherever the window is placed (R41, log 6). -/
theorem InstructionCache.bounds_of_inWindow (h : c.inWindow a = true) :
    c.bottom.toNat ≤ a.toNat ∧ a.toNat + 4 ≤ c.top.toNat := by
  simp only [InstructionCache.inWindow, Bool.and_eq_true, decide_eq_true_eq] at h
  exact h.1

/-- The window test fails for every location that is not between the bounds. -/
theorem InstructionCache.inWindow_eq_false_of_outside
    (h : ¬ (c.bottom.toNat ≤ a.toNat ∧ a.toNat + 4 ≤ c.top.toNat)) : c.inWindow a = false :=
  Bool.eq_false_iff.mpr (mt InstructionCache.bounds_of_inWindow h)

/-- Everything a failing `fetch` can report: the first check that fails, and how it fails (R41, R113). -/
theorem cacheFetch_error_cases (h : cacheFetch c a = .error f) :
    (f = .misalignedFetch a ∧ a.toNat % 4 ≠ 0) ∨ (f = .nullFetch ∧ a = 0) ∨
    (f = .cacheMiss a ∧ a.toNat % 4 = 0 ∧ a ≠ 0 ∧
      (c.inWindow a = false ∨ c.inWindow a = true ∧ a ≠ c.index ∧ ¬ a.toNat < c.top.toNat - 4)) := by
  rcases cacheFetch_cases c a with ⟨hmis, e⟩ | ⟨-, hnull, e⟩ | ⟨halign, hne, hout, e⟩ | ⟨-, -, -, -, e⟩ |
    ⟨-, -, -, -, -, e⟩ | ⟨halign, hne, hin, hidx, hlast, e⟩ <;> rw [e] at h <;> cases h
  · exact .inl ⟨rfl, hmis⟩
  · exact .inr (.inl ⟨rfl, hnull⟩)
  · exact .inr (.inr ⟨rfl, halign, hne, .inl hout⟩)
  · exact .inr (.inr ⟨rfl, halign, hne, .inr ⟨hin, hidx, hlast⟩⟩)

/-- The location alone decides the code of a failing `fetch`, and the fault records the location (R111). -/
theorem code_of_cacheFetch_error (h : cacheFetch c a = .error f) :
    f.address = a ∧ (f.code = 2 ↔ a.toNat % 4 ≠ 0) ∧ (f.code = 3 ↔ a = 0) ∧
      (f.code = 4 ↔ a.toNat % 4 = 0 ∧ a ≠ 0) ∧ f.code ≠ 1 := by
  obtain ⟨rfl, hmis⟩ | ⟨rfl, rfl⟩ | ⟨rfl, halign, hne, -⟩ := cacheFetch_error_cases h
  · have hne : a ≠ 0 := fun hnull => hmis (congrArg (BitVec.toNat · % 4) hnull)
    simpa [hmis] using hne
  · simp
  · simpa [halign] using hne

/-- Where the window is placed, a miss is one of the two of R111: outside the window, or its last word off the cursor. -/
theorem outside_or_last_of_cacheFetch_miss (hplaced : c.Placed) (h : cacheFetch c a = .error f) (hcode : f.code = 4) :
    ¬ (c.bottom.toNat ≤ a.toNat ∧ a.toNat + 4 ≤ c.top.toNat) ∨ (a.toNat + 4 = c.top.toNat ∧ a ≠ c.index) := by
  have ⟨hsize, _⟩ := hplaced
  obtain ⟨rfl, -⟩ | ⟨rfl, -⟩ | ⟨-, -, -, hout | ⟨hin, hidx, hlast⟩⟩ := cacheFetch_error_cases h
  · simp at hcode
  · simp at hcode
  · rw [← Bool.not_eq_true, InstructionCache.inWindow_iff hsize] at hout
    exact .inl hout
  · have hbounds := InstructionCache.bounds_of_inWindow hin
    exact .inr ⟨by omega, hidx⟩

end Fetch

/-- A running core's `rising` that ends with a fault latched is a `raise` of its fetch: no instruction sets the latch
(R111, R114). -/
theorem rising_fault_cases {s t : State} (hrun : s.Running) (h : rising s = .ok t) (hfault : t.fault ≠ none) :
    ∃ f, cacheFetch s.cache s.pc = .error f ∧ t = s.raise f := by
  cases hfetch : cacheFetch s.cache s.pc with
  | error f =>
    rw [rising_raise hrun hfetch] at h
    cases h
    exact ⟨f, rfl, rfl⟩
  | ok p =>
    obtain ⟨u, hrising, hu⟩ := rising_running_of_fetch_ok hrun hfetch
    rw [hrising] at h
    cases h
    exact absurd hu hfault

/-! ### The fault that reset raises (R28, R111) -/

/-- A failing `read` reports its own address (R30). -/
theorem MemoryDevice.read_error {d : MemoryDevice} {a : Word} {e : OutOfBounds} (h : d.read a = .error e) :
    e = ⟨a⟩ := by
  cases hb : d.inBounds a with
  | true => rw [MemoryDevice.read_of_inBounds hb] at h; cases h
  | false => rw [MemoryDevice.read_of_outOfBounds hb] at h; cases h; rfl

/-- The copy loop fails only with the error of a `read` that the device refuses, whatever the target (R40). -/
theorem read_of_copyWords_error {d : MemoryDevice} {target : Word} {n k : Nat} {m : Memory} {e : OutOfBounds}
    (h : copyWords d target n k m = .error e) : d.read e.address = .error e := by
  induction n generalizing k m with
  | zero => cases h
  | succ n ih =>
    unfold copyWords at h
    cases hread : d.read (target + BitVec.ofNat 32 (4 * k)) with
    | ok v =>
      rw [hread] at h
      exact ih h
    | error e' =>
      rw [hread] at h
      cases h
      obtain rfl := MemoryDevice.read_error hread
      exact hread

theorem read_of_loadCache_failed {free : Nat} {target : Word} {d : MemoryDevice} {e : OutOfBounds}
    (h : (loadCache free target d).failed = some e) : d.read e.address = .error e := by
  unfold loadCache at h
  split at h
  · cases h
  · next hcopy =>
    cases h
    exact read_of_copyWords_error hcopy

/-- A fault that a construction latches comes from a `read` that failed during its load (R28). -/
theorem State.construct_fault_cases {free : Nat} {pcReset spReset : Word} {spIndex : Nat} {d : MemoryDevice} {f : Fault}
    (h : (State.construct free pcReset spReset spIndex d).fault = some f) :
    ∃ e : OutOfBounds, f = .outOfBounds e.address ∧ d.read e.address = .error e := by
  rw [State.construct_fault, Option.map_eq_some_iff] at h
  obtain ⟨e, hfailed, rfl⟩ := h
  exact ⟨e, rfl, read_of_loadCache_failed hfailed⟩

/-! ### The host's own failed access (R112) -/

theorem hostApply_read_error {s : State} {a : Word} {e : OutOfBounds} (h : s.device.read a = .error e) :
    hostApply (.read a) s = .ok (s, .outOfBounds e.address) := by
  simp [hostApply, h]

/-! ### The obligations -/

/-- Settles O16: a latched fault is the one its fetch or its load reports, and each of those is read off the check that
failed. -/
theorem faultsAriseInFetchOrReset : Obligations.FaultsAriseInFetchOrReset := by
  unfold Obligations.FaultsAriseInFetchOrReset
  refine ⟨fun i s => ?exec, fun a => ⟨rfl, rfl, rfl, rfl, rfl⟩, fun s t f hrun hrising hfault => ?fetch,
    fun free pcReset spReset spIndex d f hfault => ?reset, fun d a v hout => ?access⟩
  case exec =>
    obtain ⟨t, hexec, -, -, hfault, -⟩ := exec_next i s
    exact ⟨t, hexec, hfault⟩
  case fetch =>
    obtain ⟨g, hfetch, rfl⟩ := rising_fault_cases hrun hrising (by simp [hfault])
    obtain rfl : g = f := Option.some.inj hfault
    obtain ⟨haddress, hmisaligned, hnull, hmiss, hbounds⟩ := code_of_cacheFetch_error hfetch
    exact ⟨haddress, hmisaligned, hnull, hmiss, hbounds,
      fun hcode hplaced => outside_or_last_of_cacheFetch_miss hplaced hfetch hcode⟩
  case reset =>
    obtain ⟨e, rfl, hread⟩ := State.construct_fault_cases hfault
    exact ⟨rfl, hread⟩
  case access =>
    have hfail : d.inBounds a = false := by
      rw [MemoryDevice.inBounds_eq_false_iff, MemoryDevice.endAddress]
      omega
    exact ⟨MemoryDevice.read_of_outOfBounds hfail, MemoryDevice.write_of_outOfBounds hfail v⟩

/-- Settles O34: the `raise` of the fetch is all that a faulting `rising` does, and it leaves a halted core. -/
theorem raiseChangesOnlyTheLatch : Obligations.RaiseChangesOnlyTheLatch := by
  unfold Obligations.RaiseChangesOnlyTheLatch
  intro s t hrun hrising hfault
  obtain ⟨f, hfetch, rfl⟩ := rising_fault_cases hrun hrising hfault
  exact ⟨f, hfetch, rfl, falling_halted (s.raise_fault f)⟩

/-- Settles O33: each clause is the `raise` of the check that fails first; the window test needs no placed window to
fail outside the bounds. -/
theorem fetchFaultPriority : Obligations.FetchFaultPriority := by
  unfold Obligations.FetchFaultPriority
  exact ⟨fun s => rising_of_misaligned, fun s => rising_of_null,
    fun s hrun halign hne hout =>
      rising_raise hrun (cacheFetch_of_not_inWindow halign hne (InstructionCache.inWindow_eq_false_of_outside hout)),
    falling_fault⟩

/-- Settles O57: both accesses fail in the device, and the host's operation hands the error on with the state it was
given. -/
theorem hostAccessErrorsAreTheHostsOwn : Obligations.HostAccessErrorsAreTheHostsOwn := by
  unfold Obligations.HostAccessErrorsAreTheHostsOwn
  exact fun s a v hout => ⟨hostApply_read_error (MemoryDevice.read_of_outOfBounds hout),
    hostApply_write_error (MemoryDevice.write_of_outOfBounds hout v)⟩

end Sys2Proof.Machine

/-! ## Proofs: the encoder and the two round trips (spec 30_encoding R67 to R72; 20_memory R50) -/

namespace Sys2Proof

/-! ### Decode of a word made of fields, and of a word in neither row -/

/-- A J-type word with the `JAL` opcode decodes to its own fields (R62, R68). -/
theorem decode_wordOfJType {v : JType} (hop : v.op = 0b1101111) :
    decode (wordOfJType v) = .jal (regOfField v.rd) v.imm (dirOfField v.sign) := by
  have hview := jTypeOfWord_wordOfJType v
  rw [decode_of_jal_op ((congrArg JType.op hview).trans hop)]
  exact congrArg (fun u : JType => Instr.jal (regOfField u.rd) u.imm (dirOfField u.sign)) hview

/-- An I-type word with the `ADDI` opcode and `funct3` decodes to its own fields (R62, R68). -/
theorem decode_wordOfIType {v : IType} (hop : v.op = 0b0010011) (hfunct3 : v.funct3 = 0b000) :
    decode (wordOfIType v) = .addi (regOfField v.rs1) v.imm (regOfField v.rd) := by
  have hview := iTypeOfWord_wordOfIType v
  rw [decode_of_addi_op ((congrArg IType.op hview).trans hop) ((congrArg IType.funct3 hview).trans hfunct3)]
  exact congrArg (fun u : IType => Instr.addi (regOfField u.rs1) u.imm (regOfField u.rd)) hview

/-- An unrecognised term is well-formed exactly when its word is in neither row, by opcode and `funct3` (R67). -/
theorem Instr.unrecognised_wellFormed_iff (w : Word) :
    (Instr.unrecognised w).wellFormed = true ↔
      w.extractLsb' 0 7 ≠ 0b1101111 ∧ ¬ (w.extractLsb' 0 7 = 0b0010011 ∧ w.extractLsb' 12 3 = 0b000) := by
  rw [Ne, ← jalRow_holds_iff, ← addiRow_holds_iff]
  simp [Instr.wellFormed]

/-! ### The round trips (R71) -/

@[simp] theorem decode_encode_jal (rd : RegIdx) (imm19 : BitVec 19) (dir : Direction) :
    decode (encode (.jal rd imm19 dir)) = .jal rd imm19 dir := by
  rw [encode, decode_wordOfJType rfl, regOfField_fieldOfReg, dirOfField_fieldOfDir]

@[simp] theorem decode_encode_addi (rs1 : RegIdx) (imm12 : BitVec 12) (rd : RegIdx) :
    decode (encode (.addi rs1 imm12 rd)) = .addi rs1 imm12 rd := by
  rw [encode, decode_wordOfIType rfl rfl, regOfField_fieldOfReg, regOfField_fieldOfReg]

theorem decode_encode {i : Instr} (h : i.wellFormed = true) : decode (encode i) = i := by
  cases i with
  | jal rd imm19 dir => exact decode_encode_jal rd imm19 dir
  | addi rs1 imm12 rd => exact decode_encode_addi rs1 imm12 rd
  | unrecognised w =>
    obtain ⟨hjal, haddi⟩ := (Instr.unrecognised_wellFormed_iff w).mp h
    exact decode_of_neither_op hjal haddi

theorem decode_wellFormed (w : Word) : (decode w).wellFormed = true := by
  obtain ⟨-, hdec⟩ | ⟨-, hdec⟩ | ⟨hjal, haddi, hdec⟩ := decode_cases w <;> rw [hdec]
  · rfl
  · rfl
  · exact (Instr.unrecognised_wellFormed_iff w).mpr ⟨hjal, haddi⟩

/-- Each of the first two cases encodes the word's own view, whose opcode field (and `funct3`) the case fixes. -/
theorem encode_decode (w : Word) : encode (decode w) = w := by
  obtain ⟨hop, hdec⟩ | ⟨⟨hop, hfunct3⟩, hdec⟩ | ⟨-, -, hdec⟩ := decode_cases w <;> rw [hdec]
  · calc encode _ = wordOfJType (jTypeOfWord w) := by
          rw [encode, fieldOfReg_regOfField, fieldOfDir_dirOfField, jTypeOfWord, hop]
      _ = w := wordOfJType_jTypeOfWord w
  · calc encode _ = wordOfIType (iTypeOfWord w) := by
          rw [encode, fieldOfReg_regOfField, fieldOfReg_regOfField, iTypeOfWord, hop, hfunct3]
      _ = w := wordOfIType_iTypeOfWord w
  · rfl

/-! ### The two rows and what decode answers (R67) -/

theorem jalRow_holds_iff_decode (w : Word) :
    jalRow.holds w = true ↔ ∃ rd imm19 dir, decode w = .jal rd imm19 dir := by
  refine ⟨fun hrow => ⟨_, _, _, Machine.decode_of_jalRow hrow⟩, fun ⟨rd, imm19, dir, hdec⟩ => ?_⟩
  rw [← encode_decode w, hdec]
  exact (Laws.EncodesInOwnRow.jal rd imm19 dir rfl).1

theorem addiRow_holds_iff_decode (w : Word) :
    addiRow.holds w = true ↔ ∃ rs1 imm12 rd, decode w = .addi rs1 imm12 rd := by
  refine ⟨fun hrow => ⟨_, _, _, Machine.decode_of_addiRow hrow⟩, fun ⟨rs1, imm12, rd, hdec⟩ => ?_⟩
  rw [← encode_decode w, hdec]
  exact (Laws.EncodesInOwnRow.addi rs1 imm12 rd rfl).2

/-- The two rows differ in the opcode. -/
theorem not_jalRow_and_addiRow (w : Word) : ¬ (jalRow.holds w = true ∧ addiRow.holds w = true) := by
  rw [jalRow_holds_iff, addiRow_holds_iff]
  rintro ⟨hjal, haddi, -⟩
  exact absurd (hjal.symm.trans haddi) (by decide)

theorem decode_eq_unrecognised_iff (w : Word) :
    decode w = .unrecognised w ↔ ¬ jalRow.holds w = true ∧ ¬ addiRow.holds w = true := by
  rw [jalRow_holds_iff, addiRow_holds_iff]
  refine ⟨fun hdec => (Instr.unrecognised_wellFormed_iff w).mp ?_,
    fun ⟨hjal, haddi⟩ => decode_of_neither_op hjal haddi⟩
  rw [← hdec]
  exact decode_wellFormed w

/-! ### The byte-level decoder (R50, R60) -/

@[simp] theorem decodeBytes_four (b0 b1 b2 b3 : Byte) (rest : List Byte) :
    decodeBytes (b0 :: b1 :: b2 :: b3 :: rest) = .ok (decode (wordOfBytes b0 b1 b2 b3), rest) := rfl

theorem decodeBytes_bytesOfWord_append (w : Word) (rest : List Byte) :
    decodeBytes (bytesOfWord w ++ rest) = .ok (decode w, rest) := by
  simp only [bytesOfWord, List.cons_append, List.nil_append, decodeBytes_four,
    Machine.wordOfBytes_byteOfWord]

theorem decodeBytes_of_length_lt_four {bs : List Byte} (h : bs.length < 4) :
    decodeBytes bs = .error (.tooFewBytes bs.length) := by
  match bs with
  | [] | [_] | [_, _] | [_, _, _] => rfl
  | _ :: _ :: _ :: _ :: _ => exact absurd h (by simp)

/-! ### The words as shifted fields (R71) -/

/-- A J-type word is the disjunction of its fields, each shifted to its place. -/
theorem wordOfJType_eq_or (v : JType) :
    wordOfJType v = (v.sign.setWidth 32 <<< 31) ||| (v.imm.setWidth 32 <<< 12) ||| (v.rd.setWidth 32 <<< 7) |||
      v.op.setWidth 32 := by
  refine BitVec.eq_of_getLsbD_eq fun i hi => ?_
  rw [wordOfJType_getLsbD]
  interval_cases i <;> simp [BitVec.getLsbD_of_ge]

/-- An I-type word is the disjunction of its fields, each shifted to its place. -/
theorem wordOfIType_eq_or (v : IType) :
    wordOfIType v = (v.imm.setWidth 32 <<< 20) ||| (v.rs1.setWidth 32 <<< 15) ||| (v.funct3.setWidth 32 <<< 12) |||
      (v.rd.setWidth 32 <<< 7) ||| v.op.setWidth 32 := by
  refine BitVec.eq_of_getLsbD_eq fun i hi => ?_
  rw [wordOfIType_getLsbD]
  interval_cases i <;> simp [BitVec.getLsbD_of_ge]

theorem fieldOfReg_setWidth (r : RegIdx) : (fieldOfReg r).setWidth 32 = BitVec.ofNat 32 r.val :=
  (BitVec.ofNat_toNat 32 (fieldOfReg r)).symm

/-! ### How many words each row of the opcode map holds (R67) -/

/-- The words that decode to one of a family of distinct well-formed instructions are as many as the family: `encode`
names one word for each. -/
theorem card_decode_mem_family {α : Type} {f : α → Instr} (hinj : Function.Injective f)
    (hwf : ∀ x, (f x).wellFormed = true) : Nat.card { w : Word // ∃ x, decode w = f x } = Nat.card α := by
  refine (Nat.card_eq_of_bijective
    (fun x => (⟨encode (f x), x, decode_encode (hwf x)⟩ : { w : Word // ∃ x, decode w = f x })) ⟨?_, ?_⟩).symm
  · intro x y hxy
    have hword : encode (f x) = encode (f y) := congrArg Subtype.val hxy
    exact hinj (by rw [← decode_encode (hwf x), hword, decode_encode (hwf y)])
  · rintro ⟨w, x, hdec⟩
    exact ⟨x, Subtype.ext ((congrArg encode hdec).symm.trans (encode_decode w))⟩

/-- The operands of a `JAL`, as one family of instructions. -/
def jalOf (x : RegIdx × BitVec 19 × Direction) : Instr := .jal x.1 x.2.1 x.2.2

/-- The operands of an `ADDI`, as one family of instructions. -/
def addiOf (x : RegIdx × BitVec 12 × RegIdx) : Instr := .addi x.1 x.2.1 x.2.2

theorem jalOf_injective : Function.Injective jalOf := by
  rintro ⟨rd, imm19, dir⟩ ⟨rd', imm19', dir'⟩ h
  cases h
  rfl

theorem addiOf_injective : Function.Injective addiOf := by
  rintro ⟨rs1, imm12, rd⟩ ⟨rs1', imm12', rd'⟩ h
  cases h
  rfl

theorem card_bitVec (n : Nat) : Nat.card (BitVec n) = 2 ^ n :=
  (Nat.card_congr BitVec.equivFin.toEquiv).trans (Nat.card_fin _)

theorem card_direction : Nat.card Direction = 2 :=
  (Nat.card_congr ⟨fieldOfDir, dirOfField, dirOfField_fieldOfDir, fieldOfDir_dirOfField⟩).trans (card_bitVec 1)

theorem card_jal_words : Nat.card { w : Word // ∃ rd imm19 dir, decode w = .jal rd imm19 dir } = 2 ^ 25 := by
  have h := card_decode_mem_family jalOf_injective fun _ => rfl
  rw [Nat.card_prod, Nat.card_prod, Nat.card_fin, card_bitVec, card_direction] at h
  simp only [Prod.exists, jalOf] at h
  exact h

theorem card_addi_words : Nat.card { w : Word // ∃ rs1 imm12 rd, decode w = .addi rs1 imm12 rd } = 2 ^ 22 := by
  have h := card_decode_mem_family addiOf_injective fun _ => rfl
  rw [Nat.card_prod, Nat.card_prod, Nat.card_fin, card_bitVec] at h
  simp only [Prod.exists, addiOf] at h
  exact h

/-- The words of a row of the opcode map (R67). -/
def OpcodeRow.words (r : OpcodeRow) : Set Word := { w | r.holds w = true }

theorem ncard_jalRow_words : jalRow.words.ncard = 2 ^ 25 :=
  (Nat.card_congr (Equiv.subtypeEquivRight jalRow_holds_iff_decode)).trans card_jal_words

theorem ncard_addiRow_words : addiRow.words.ncard = 2 ^ 22 :=
  (Nat.card_congr (Equiv.subtypeEquivRight addiRow_holds_iff_decode)).trans card_addi_words

theorem disjoint_words : Disjoint jalRow.words addiRow.words :=
  Set.disjoint_left.mpr fun w hjal haddi => not_jalRow_and_addiRow w ⟨hjal, haddi⟩

/-- The unrecognised words are the complement of the two rows, which have no word in common. -/
theorem card_unrecognised_words :
    Nat.card { w : Word // decode w = .unrecognised w } = 2 ^ 32 - 2 ^ 25 - 2 ^ 22 := by
  have hcompl : Nat.card { w : Word // decode w = .unrecognised w } = (jalRow.words ∪ addiRow.words)ᶜ.ncard :=
    Nat.card_congr (Equiv.subtypeEquivRight fun w =>
      (decode_eq_unrecognised_iff w).trans not_or.symm)
  have hrows : (jalRow.words ∪ addiRow.words).ncard = 2 ^ 25 + 2 ^ 22 := by
    rw [Set.ncard_union_eq disjoint_words, ncard_jalRow_words, ncard_addiRow_words]
  have htotal := (jalRow.words ∪ addiRow.words).ncard_add_ncard_compl
  rw [card_bitVec] at htotal
  omega

end Sys2Proof

namespace Sys2Proof.Machine

/-! ### The obligations -/

/-- Settles O3: a word made of fields decodes to them, and a well-formed unrecognised word is in neither row. -/
theorem decodeOfEncodeIsTheInstruction : Obligations.DecodeOfEncodeIsTheInstruction := by
  unfold Obligations.DecodeOfEncodeIsTheInstruction
  exact fun i => decode_encode

/-- Settles O4: the operands keep every bit of the word that the opcode tests do not fix. -/
theorem encodeOfDecodeIsTheWord : Obligations.EncodeOfDecodeIsTheWord := by
  unfold Obligations.EncodeOfDecodeIsTheWord
  exact fun w => ⟨decode_wellFormed w, encode_decode w⟩

/-- Settles O5: joining fields is shifting each to its place, and the fixed fields are the formulas' constants. -/
theorem encodersAreTheShiftFormulas : Obligations.EncodersAreTheShiftFormulas := by
  unfold Obligations.EncodersAreTheShiftFormulas
  refine ⟨fun rd imm19 dir => ⟨?jal, decode_encode_jal rd imm19 dir⟩,
    fun rs1 imm12 rd => ⟨?addi, decode_encode_addi rs1 imm12 rd⟩⟩
  case jal =>
    rw [encode, wordOfJType_eq_or, fieldOfReg_setWidth]
    cases dir <;> rfl
  case addi =>
    rw [encode, wordOfIType_eq_or, fieldOfReg_setWidth, fieldOfReg_setWidth]
    rfl

/-- Settles O6: each pair is the test of its row, and decode answers an instruction exactly on its row. -/
theorem opcodeMapSelectsTheInstruction : Obligations.OpcodeMapSelectsTheInstruction := by
  unfold Obligations.OpcodeMapSelectsTheInstruction
  intro w
  have hjal : jalRow.holds w = true ↔ w &&& 0x0000007F = 0x0000006F := beq_iff_eq
  have haddi : addiRow.holds w = true ↔ w &&& 0x0000707F = 0x00000013 := beq_iff_eq
  rw [← hjal, ← haddi]
  exact ⟨jalRow_holds_iff_decode w, addiRow_holds_iff_decode w, (decode_eq_unrecognised_iff w).symm,
    not_jalRow_and_addiRow w⟩

/-- Settles O7: `encode` counts a row by the operands it takes, and the rest is the complement of the two rows. -/
theorem opcodeMapWordCounts : Obligations.OpcodeMapWordCounts := by
  unfold Obligations.OpcodeMapWordCounts
  exact ⟨card_jal_words, card_addi_words, card_unrecognised_words⟩

/-- Settles O1: each word is laid out as bytes, decoded, and compared. -/
theorem specWordsDecodeAsTheSpecLists : Obligations.SpecWordsDecodeAsTheSpecLists := by
  unfold Obligations.SpecWordsDecodeAsTheSpecLists
  decide

/-- Settles O10: the four bytes of a word make the word again; a list of fewer bytes has no fourth. -/
theorem bytesDecodeFourAtATime : Obligations.BytesDecodeFourAtATime := by
  unfold Obligations.BytesDecodeFourAtATime
  exact ⟨decodeBytes_bytesOfWord_append, fun bs => decodeBytes_of_length_lt_four⟩

/-- Settles O11: each line but `NOP` is the encoder's word, and the word of `NOP` is in neither row. -/
theorem listingLinesAssembleToTheEncoders : Obligations.ListingLinesAssembleToTheEncoders := by
  unfold Obligations.ListingLinesAssembleToTheEncoders
  exact ⟨fun rd n => ⟨decode_encode_jal rd n .forward, decode_encode_jal rd n .backward⟩,
    fun rs rd n => ⟨decode_encode_addi rs n rs, decode_encode_addi rs n rd⟩, rfl,
    decode_encode (i := .unrecognised 0) (by decide)⟩

end Sys2Proof.Machine

/-! ## Proofs: what an instruction writes and reads (spec 10_state R12; 43_unrecognised R100) -/

namespace Sys2Proof.Machine

/-! ### Two writes after each other -/

section Writes

variable (s : State)

/-- The second write of a register is the one that stays. -/
theorem State.setReg_setReg_same (i : RegIdx) (u v : Word) : (s.setReg i u).setReg i v = s.setReg i v := by
  simp [State.setReg]

/-- Writes of different registers commute. -/
theorem State.setReg_setReg_comm {i j : RegIdx} (h : i ≠ j) (u v : Word) :
    (s.setReg i u).setReg j v = (s.setReg j v).setReg i u := by
  have hne : (i : Nat) ≠ j := fun e => h (Fin.ext e)
  simp [State.setReg, Vector.set_comm _ _ hne]

theorem State.setPc_setReg (t : Word) (i : RegIdx) (v : Word) : (s.setPc t).setReg i v = (s.setReg i v).setPc t := rfl

end Writes

/-! ### What an instruction that answers a state has done to it (R81) -/

section Exec

variable {s t : State}

theorem exec_jal_eq (rd : RegIdx) (imm19 : BitVec 19) (dir : Direction) (s : State) :
    exec (.jal rd imm19 dir) s = .next ((s.setReg rd (linkValue s.pc)).setPc (jumpValue s.pc imm19 dir)) := rfl

theorem exec_addi_eq (rs1 : RegIdx) (imm12 : BitVec 12) (rd : RegIdx) (s : State) :
    exec (.addi rs1 imm12 rd) s = .next (s.setReg rs1 (s.reg rs1 + immI imm12)) := rfl

/-- An instruction answers one state only. -/
theorem exec_deterministic {i : Instr} {u : State} (h : exec i s = .next t) (hu : exec i s = .next u) : t = u :=
  Host.Outcome.next.inj (h.symm.trans hu)

theorem exec_frame {i : Instr} (h : exec i s = .next t) :
    t.cache = s.cache ∧ t.device = s.device ∧ t.fault = s.fault ∧ t.freeCount = s.freeCount := by
  obtain ⟨u, hu, hframe⟩ := exec_next i s
  rwa [exec_deterministic h hu]

/-- The two writes of a `JAL` (R90). -/
theorem jal_writes {rd : RegIdx} {imm19 : BitVec 19} {dir : Direction} (h : exec (.jal rd imm19 dir) s = .next t) :
    t.reg rd = linkValue s.pc ∧ (∀ r, r ≠ rd → t.reg r = s.reg r) ∧ t.pc = jumpValue s.pc imm19 dir := by
  obtain ⟨u, hu, hlink, hpc, hother, -⟩ := exec_jal rd imm19 dir s
  rw [exec_deterministic h hu]
  exact ⟨hlink, hother, hpc⟩

/-- The one write of an `ADDI` (R95). -/
theorem addi_writes {rs1 : RegIdx} {imm12 : BitVec 12} {rd : RegIdx} (h : exec (.addi rs1 imm12 rd) s = .next t) :
    t.reg rs1 = s.reg rs1 + immI imm12 ∧ (∀ r, r ≠ rs1 → t.reg r = s.reg r) ∧ t.pc = s.pc := by
  obtain ⟨u, hu, hsum, hother, hpc, -⟩ := exec_addi rs1 imm12 rd s
  rw [exec_deterministic h hu]
  exact ⟨hsum, hother, hpc⟩

/-- An unrecognised word writes nothing (R100). -/
theorem unrecognised_writes_nothing {w : Word} (h : exec (.unrecognised w) s = .next t) : t = s :=
  exec_deterministic h (exec_unrecognised w s)

/-- There is one register at most that an instruction changes (R12). -/
theorem exec_changes_one_register {i : Instr} (h : exec i s = .next t) : ∃ r, ∀ r', r' ≠ r → t.reg r' = s.reg r' := by
  cases i with
  | jal rd imm19 dir =>
    obtain ⟨-, hother, -⟩ := jal_writes h
    exact ⟨rd, hother⟩
  | addi rs1 imm12 rd =>
    obtain ⟨-, hother, -⟩ := addi_writes h
    exact ⟨rs1, hother⟩
  | unrecognised w =>
    rw [unrecognised_writes_nothing h]
    exact ⟨0, fun _ _ => rfl⟩

/-- Only `JAL` writes `pc` (R81). -/
theorem exec_pc_of_not_jal {i : Instr} (hne : ∀ rd imm19 dir, i ≠ .jal rd imm19 dir) (h : exec i s = .next t) :
    t.pc = s.pc := by
  cases i with
  | jal rd imm19 dir => exact absurd rfl (hne rd imm19 dir)
  | addi rs1 imm12 rd =>
    obtain ⟨-, -, hpc⟩ := addi_writes h
    exact hpc
  | unrecognised w => rw [unrecognised_writes_nothing h]

end Exec

/-! ### The obligations -/

/-- Settles O15: the frame outside registers and `pc` is one for all instructions; the writes are each one's own. -/
theorem instructionsChangeOnlyTheirDestination : Obligations.InstructionsChangeOnlyTheirDestination := by
  unfold Obligations.InstructionsChangeOnlyTheirDestination
  intro i s t hexec
  obtain ⟨hcache, hdevice, hfault, hfree⟩ := exec_frame hexec
  refine ⟨?registers, ?pc, fun a => congrArg (MemoryDevice.byteAt · a) hdevice, hdevice, hcache, hfault, hfree⟩
  case registers =>
    cases i with
    | jal rd imm19 dir =>
      obtain ⟨-, hother, -⟩ := jal_writes hexec
      exact hother
    | addi rs1 imm12 rd =>
      obtain ⟨-, hother, -⟩ := addi_writes hexec
      exact hother
    | unrecognised w => exact fun r _ => congrArg (State.reg · r) (unrecognised_writes_nothing hexec)
  case pc =>
    cases i with
    | jal rd imm19 dir => trivial
    | addi rs1 imm12 rd => exact exec_pc_of_not_jal (fun _ _ _ => Instr.noConfusion) hexec
    | unrecognised w => exact exec_pc_of_not_jal (fun _ _ _ => Instr.noConfusion) hexec

/-- Settles O19: an earlier write of the destination is lost under the instruction's own, and one of another register
commutes with it. -/
theorem instructionsReadOnlyTheirSource : Obligations.InstructionsReadOnlyTheirSource := by
  unfold Obligations.InstructionsReadOnlyTheirSource
  refine ⟨fun rd imm19 dir s t r v hexec => ?jal, fun rs1 imm12 rd s t r v hexec hne => ?addi,
    fun w s t r v hexec => ?unrecognised⟩
  case jal =>
    rw [exec_jal_eq] at hexec ⊢
    cases hexec
    split
    · next hr => rw [hr, State.setReg_setReg_same, State.setReg_pc]
    · next hr => rw [State.setReg_setReg_comm s hr, State.setPc_setReg, State.setReg_pc]
  case addi =>
    rw [exec_addi_eq] at hexec ⊢
    cases hexec
    rw [State.reg_setReg_other s hne.symm, State.setReg_setReg_comm s hne]
  case unrecognised =>
    rw [unrecognised_writes_nothing hexec]
    exact exec_unrecognised w _

end Sys2Proof.Machine

/-! ## Proofs: the phases, the cycle and the step (spec 40_cycle R80 to R87; 20_memory R41 to R48; 10_state R21) -/

namespace Sys2Proof.Machine

/-! ### Both phases are total (R83, R85) -/

theorem rising_total (s : State) : ∃ t, rising s = .ok t := by
  obtain ⟨f, -, h⟩ | ⟨-, f, -, h⟩ | ⟨-, w, c, t, -, -, h⟩ := rising_cases s <;> exact ⟨_, h⟩

theorem cycle_of_rising {s t : State} (h : rising s = .ok t) : cycle s = .ok (falling t) := by
  unfold cycle; rw [h]

theorem step_of_cycle {s t : State} (h : cycle s = .ok t) : step s = report (.ok t) := congrArg report h

/-- A core that runs after its cycle is answered as it is (R87, log 7). -/
theorem report_running {t : State} (h : t.Running) : report (.ok t) = .next t := by
  simp only [report, h]

/-- A core that is halted after its cycle is answered by its fault (R87, R115, log 7). -/
theorem report_halted {t : State} {f : Fault} (h : t.fault = some f) : report (.ok t) = .fault f := by
  simp only [report, h]

/-- What is reported of a state is never a refusal. -/
theorem report_ne_refused (t : State) (r : Refusal) : report (.ok t) ≠ .refused r := by
  cases h : t.fault with
  | none => rw [report_running h]; exact nofun
  | some f => rw [report_halted h]; exact nofun

theorem step_ne_refused (s : State) (r : Refusal) : step s ≠ .refused r := by
  obtain ⟨t, hrising⟩ := rising_total s
  rw [step_of_cycle (cycle_of_rising hrising)]
  exact report_ne_refused _ r

/-! ### The fetch of a `pc` that fails a check (R41, R113) -/

/-- The fault that a fetch at a location outside the fetchable ones reports (R84). -/
def fetchFault (a : Word) : Fault :=
  if a.toNat % 4 ≠ 0 then .misalignedFetch a else if a = 0 then .nullFetch else .cacheMiss a

theorem fetchFault_of_misaligned {a : Word} (h : a.toNat % 4 ≠ 0) : fetchFault a = .misalignedFetch a := if_pos h

theorem fetchFault_of_aligned {a : Word} (halign : a.toNat % 4 = 0) (hne : a ≠ 0) : fetchFault a = .cacheMiss a := by
  rw [fetchFault, if_neg (not_not.mpr halign), if_neg hne]

section Boundary

variable {s t : State}

theorem cacheFetch_of_not_fetchable (hnot : ¬ s.Fetchable) :
    cacheFetch s.cache s.pc = .error (fetchFault s.pc) := by
  by_cases halign : s.pc.toNat % 4 = 0
  case neg => rw [fetchFault_of_misaligned halign, cacheFetch_of_misaligned halign]
  by_cases hnull : s.pc = 0
  case pos => rw [hnull]; exact cacheFetch_zero s.cache
  have hout : s.cache.inWindow s.pc = false :=
    InstructionCache.inWindow_eq_false_of_outside fun hin => hnot ⟨halign, hnull, hin⟩
  rw [fetchFault_of_aligned halign hnull, cacheFetch_of_not_inWindow halign hnull hout]

theorem step_of_not_fetchable (hrun : s.Running) (hnot : ¬ s.Fetchable) :
    step s = .fault (fetchFault s.pc) :=
  step_raise hrun (cacheFetch_of_not_fetchable hnot)

/-! ### The cycle of a fetchable `pc` (R84) -/

/-- The cursor after the fetch, as R81 has it: `pc + 4`, or the sentinel at the window's end. -/
theorem State.fetched_eq (s : State) :
    s.fetched = s.setCache (s.cache.setIndex (if s.pc + 4 = s.cache.top then 0 else s.pc + 4)) := rfl

/-- The instruction acts on the state whose fetch has moved the cursor, `falling` follows it, and neither sets the
latch. -/
theorem phases_of_fetchable (hrun : s.Running) (hinv : s.Inv) (hfetch : s.Fetchable) :
    ∃ u, exec (decode (s.cache.wordAt s.pc)) s.fetched = .next u ∧ u.Running ∧ rising s = .ok u ∧
      cycle s = .ok (falling u) ∧ step s = .next (falling u) := by
  obtain ⟨u, hexec, -, -, hfault, -⟩ := exec_next (decode (s.cache.wordAt s.pc)) s.fetched
  have hrising : rising s = .ok u := rising_of_executes ⟨hrun, hinv, hfetch, rfl⟩ hexec
  exact ⟨u, hexec, hfault.trans hrun, hrising, cycle_of_rising hrising,
    step_of_executes ⟨hrun, hinv, hfetch, rfl⟩ hexec⟩

theorem step_next_iff (hinv : s.Inv) : (∃ t, step s = .next t) ↔ s.Running ∧ s.Fetchable := by
  constructor
  · rintro ⟨t, hstep⟩
    obtain ⟨hrun, -⟩ := step_next hstep
    refine ⟨hrun, by_contra fun hnot => ?_⟩
    rw [step_of_not_fetchable hrun hnot] at hstep
    cases hstep
  · rintro ⟨hrun, hfetch⟩
    obtain ⟨u, -, -, -, -, hstep⟩ := phases_of_fetchable hrun hinv hfetch
    exact ⟨_, hstep⟩

/-- What every step leaves when it answers a state: the window where it was, the cursor on `pc`, the device and the
model's counter (R21, R84). -/
theorem step_frame (hstep : step s = .next t) :
    t.Running ∧ t.cache = s.cache.setIndex t.pc ∧ t.device = s.device ∧ t.freeCount = s.freeCount := by
  obtain ⟨-, w, c, u, hfetch, hexec, hrun, rfl, hdevice, rfl⟩ := step_next hstep
  obtain ⟨-, -, -, -, x, hcache⟩ := cacheFetch_ok hfetch
  obtain ⟨-, -, -, hfree⟩ := exec_frame hexec
  refine ⟨(falling_fault u).trans hrun, ?_, (falling_device u).trans hdevice, (falling_freeCount u).trans hfree⟩
  rw [falling_cache hrun, falling_pc hrun, hcache, InstructionCache.setIndex_setIndex]

/-- A step that answers a state keeps the invariant of a cycle boundary. -/
theorem step_inv (hinv : s.Inv) (hstep : step s = .next t) : t.Inv := by
  obtain ⟨hplaced, -, hdevice⟩ := hinv
  obtain ⟨-, hcache, hdev, -⟩ := step_frame hstep
  refine ⟨?_, ?_, ?_⟩
  · rw [hcache]; exact hplaced
  · rw [hcache, InstructionCache.setIndex_index]
  · rw [hdev]; exact hdevice

end Boundary

/-! ### The obligations -/

/-- Settles O23: a fetchable `pc` gives the writes of the decoded instruction followed by `falling`; any other gives the
`raise` of the check that fails, after which `falling` does nothing. -/
theorem cycleNetEffect : Obligations.CycleNetEffect := by
  unfold Obligations.CycleNetEffect
  refine fun s hrun hinv => ⟨fun hfetch => ?completes, fun hnot => ?faults⟩
  case completes =>
    obtain ⟨u, hexec, hu, -, hcycle, hstep⟩ := phases_of_fetchable hrun hinv hfetch
    obtain ⟨ht, hcache, hdevice, hfree⟩ := step_frame hstep
    have hpc : (falling u).pc = u.pc + 4 := falling_pc hu
    refine ⟨falling u, hcycle, hstep, ht, hcache, hdevice, hfree, ?_⟩
    simp only [hpc, falling_reg]
    generalize decode (s.cache.wordAt s.pc) = i at hexec ⊢
    cases i with
    | addi rs1 imm12 rd =>
      obtain ⟨hsum, hother, hupc⟩ := addi_writes hexec
      exact ⟨hsum, hother, congrArg (· + 4) hupc⟩
    | jal rd imm19 dir =>
      obtain ⟨hlink, hother, hupc⟩ := jal_writes hexec
      cases dir <;> exact ⟨hlink, hother, congrArg (· + 4) hupc⟩
    | unrecognised w =>
      rw [unrecognised_writes_nothing hexec]
      exact ⟨fun _ => rfl, rfl⟩
  case faults =>
    have hcycle := cycle_of_rising (rising_raise hrun (cacheFetch_of_not_fetchable hnot))
    rw [falling_halted (s.raise_fault _)] at hcycle
    exact ⟨fetchFault s.pc, hcycle, step_of_not_fetchable hrun hnot, rfl⟩

/-- Settles O55: the step's frame keeps the window and the device, and its cursor is the new `pc`. -/
theorem everyStepKeepsTheInvariant : Obligations.EveryStepKeepsTheInvariant := by
  unfold Obligations.EveryStepKeepsTheInvariant
  intro s t hinv hstep
  obtain ⟨hrun, hcache, -, -⟩ := step_frame hstep
  exact ⟨step_inv hinv hstep, hrun, by rw [hcache, InstructionCache.setIndex_bottom],
    by rw [hcache, InstructionCache.setIndex_top]⟩

/-- Settles O25: such a `rising` has fetched, and executed one instruction on the state whose cursor alone has moved. -/
theorem risingWritesAtMostOneRegister : Obligations.RisingWritesAtMostOneRegister := by
  unfold Obligations.RisingWritesAtMostOneRegister
  intro s t hrun hinv hrising hfault
  have hfetch : s.Fetchable := by
    by_contra hnot
    rw [rising_raise hrun (cacheFetch_of_not_fetchable hnot)] at hrising
    cases hrising
    cases hfault
  obtain ⟨u, hexec, -, hu, -, -⟩ := phases_of_fetchable hrun hinv hfetch
  obtain rfl : u = t := Except.ok.inj (hu.symm.trans hrising)
  obtain ⟨hcache, hdevice, -, hfree⟩ := exec_frame hexec
  exact ⟨hcache, hdevice, hfree, exec_changes_one_register (s := s.fetched) hexec,
    fun hne => exec_pc_of_not_jal (s := s.fetched) hne hexec⟩

/-- Settles O26: `rising` answers a state in each of its cases, and `cycle` and `step` build on it. -/
theorem phasesAreTotal : Obligations.PhasesAreTotal := by
  unfold Obligations.PhasesAreTotal
  intro s
  obtain ⟨t, hrising⟩ := rising_total s
  exact ⟨⟨t, hrising⟩, ⟨_, cycle_of_rising hrising⟩, step_ne_refused s⟩

/-- Settles O27: a step that is not refused answers a state or a fault, and the first is `step_next_iff`. -/
theorem stepCompletesExactlyWhenFetchable : Obligations.StepCompletesExactlyWhenFetchable := by
  unfold Obligations.StepCompletesExactlyWhenFetchable
  intro s hinv
  refine ⟨step_next_iff hinv, ?_⟩
  rw [← step_next_iff hinv]
  cases hstep : step s with
  | next t => simp
  | fault f => simp
  | refused r => exact absurd hstep (step_ne_refused s r)

/-- Settles O39: the fast path serves every fetchable `pc`, because the cursor is `pc` there. -/
theorem cursorIsNeverDecisiveForTheHart : Obligations.CursorIsNeverDecisiveForTheHart := by
  unfold Obligations.CursorIsNeverDecisiveForTheHart
  exact fun s hinv => ⟨fun hfetch => ⟨_, cacheFetch_of_fetchable hinv hfetch⟩,
    fun hnot => ⟨_, cacheFetch_of_not_fetchable hnot⟩⟩

/-- Settles O21: the two operations make one `cycle`, and the step reports the latch it leaves. -/
theorem stepIsRisingThenFalling : Obligations.StepIsRisingThenFalling := by
  unfold Obligations.StepIsRisingThenFalling
  intro s
  obtain ⟨t, hrising⟩ := rising_total s
  refine ⟨falling t, ?run, ?step⟩
  case run => simp [hostRun, hostApply, hrising]
  case step =>
    rw [step_of_cycle (cycle_of_rising hrising)]
    cases hfault : (falling t).fault with
    | none => exact report_running hfault
    | some f => exact report_halted hfault

/-- Settles O20: `exec` answers a state from every state; on a cycle boundary the fetch delivers the word of the four
bytes and moves the cursor as the fast path does. -/
theorem stepRunsTheDecodedInstruction : Obligations.StepRunsTheDecodedInstruction := by
  unfold Obligations.StepRunsTheDecodedInstruction
  refine ⟨fun s w c hrun hfetch => ?fetched, fun s i rest hrun hinv hfetch hbytes => ?boundary⟩
  case fetched =>
    obtain ⟨t, hexec, -⟩ := exec_next (decode w) (s.setCache c)
    rw [hexec]
    exact (step_exec hrun hfetch hexec).1
  case boundary =>
    obtain rfl : decode (s.cache.wordAt s.pc) = i := by
      rw [decodeBytes_four] at hbytes
      exact congrArg Prod.fst (Except.ok.inj hbytes)
    obtain ⟨u, hexec, -, -, -, hstep⟩ := phases_of_fetchable hrun hinv hfetch
    refine ⟨decode_wellFormed _, hstep.trans ?_⟩
    rw [← State.fetched_eq, hexec]

end Sys2Proof.Machine

/-! ## Proofs: the window as fetch reads it (spec 20_memory R40 to R50; 70_reset_and_hazards R132) -/

namespace Sys2Proof.Machine

/-! ### Addresses as natural numbers -/

theorem toNat_add_four (a : Word) : (a + 4).toNat = (a.toNat + 4) % 2 ^ 32 := BitVec.toNat_add a 4

theorem ne_zero_iff_toNat (a : Word) : a ≠ 0 ↔ a.toNat ≠ 0 := not_congr (BitVec.toNat_inj (y := 0)).symm

/-! ### What the cursor does not enter, and where it goes (R42, R43) -/

@[simp] theorem InstructionCache.inWindow_setIndex (c : InstructionCache) (a b : Word) :
    (c.setIndex a).inWindow b = c.inWindow b := rfl

@[simp] theorem InstructionCache.wordAt_setIndex (c : InstructionCache) (a b : Word) :
    (c.setIndex a).wordAt b = c.wordAt b := rfl

theorem InstructionCache.setIndex_of_eq {c : InstructionCache} {a : Word} (h : c.index = a) : c.setIndex a = c := by
  rw [← h]; rfl

@[simp] theorem InstructionCache.advance_setIndex (c : InstructionCache) (a b : Word) :
    (c.setIndex a).advance b = c.advance b := rfl

section Cursor

variable {c : InstructionCache} {a : Word}

/-- Below the last word the cursor moves to the next one (R43). -/
theorem InstructionCache.advance_of_lt (h : a.toNat + 4 < c.top.toNat) : c.advance a = a + 4 := by
  refine if_neg fun heq => ?_
  rw [← heq, toNat_add_four] at h
  exact absurd h (Nat.not_lt.mpr (Nat.mod_le _ _))

/-- At the last word the cursor becomes the sentinel (R43). -/
theorem InstructionCache.advance_of_last (h : a.toNat + 4 = c.top.toNat) : c.advance a = 0 := by
  have htop := c.top.isLt
  refine if_pos (BitVec.eq_of_toNat_eq ?_)
  rw [toNat_add_four, h]
  exact Nat.mod_eq_of_lt htop

/-- Below the last word both paths answer alike, so the cursor does not matter (R44). -/
theorem cacheFetch_of_lt_top (halign : a.toNat % 4 = 0) (hne : a ≠ 0) (hwin : c.inWindow a = true)
    (hlt : a.toNat < c.top.toNat - 4) : cacheFetch c a = .ok (c.wordAt a, c.setIndex (a + 4)) := by
  by_cases hidx : a = c.index
  · rw [cacheFetch_of_eq_index halign hne hwin hidx, InstructionCache.advance_of_lt (by omega)]
  · exact cacheFetch_of_lt_last halign hne hwin hidx hlt

end Cursor

/-! ### A word placed for the next fetch (log 5) -/

theorem State.withFetchWord_32 (s : State) (w : Word) : s.withFetchWord 32 w.toNat = s.placeWord w := by
  rw [State.withFetchWord, Nat.mod_eq_of_lt w.isLt, BitVec.ofNat_toNat, BitVec.setWidth_eq]

/-- The cache with the word stored where a fetch at the location reads it. -/
def InstructionCache.storeWord (c : InstructionCache) (a w : Word) : InstructionCache :=
  { c with window := c.window.writeWord (c.offset a) w }

section StoreWord

variable {c : InstructionCache} {a : Word} (hplaced : c.Placed) (w : Word)

include hplaced

theorem InstructionCache.wordAt_storeWord : (c.storeWord a w).wordAt a = w := by
  have ⟨_, hbuffer⟩ := hplaced
  rw [InstructionCache.bufferWf, Bool.and_eq_true] at hbuffer
  exact Memory.readWord_writeWord hbuffer.1 _ w

theorem InstructionCache.storeWord_placed (hoffset : c.offset a + 4 ≤ cacheSize) : (c.storeWord a w).Placed := by
  have ⟨hsize, hbuffer⟩ := hplaced
  rw [InstructionCache.bufferWf, Bool.and_eq_true] at hbuffer
  refine ⟨hsize, ?_⟩
  rw [InstructionCache.bufferWf, Bool.and_eq_true]
  exact ⟨Memory.writeWord_wf hbuffer.1 _ w, Memory.writeWord_within hbuffer.2 (Nat.zero_le _) hoffset w⟩

end StoreWord

theorem InstructionCache.offset_of_inside {c : InstructionCache} {a : Word} (hplaced : c.Placed)
    (hin : c.bottom.toNat ≤ a.toNat ∧ a.toNat + 4 ≤ c.top.toNat) : c.offset a + 4 ≤ cacheSize := by
  have ⟨hsize, _⟩ := hplaced
  unfold InstructionCache.offset cacheSize
  omega

theorem State.placeWord_of_fetchable {s : State} (hplaced : s.cache.Placed) (hfetch : s.Fetchable) (w : Word) :
    s.placeWord w = s.setCache (s.cache.storeWord s.pc w) := by
  obtain ⟨-, -, hin⟩ := hfetch
  exact if_pos ⟨hin.1, InstructionCache.offset_of_inside hplaced hin⟩

/-! ### Fetches at consecutive addresses after `load` (R40, R43) -/

/-- The address of word `k` of a window at `target`. -/
def windowWord (target : Word) (k : Nat) : Word := target + BitVec.ofNat 32 (4 * k)

/-- The cursor before word `k` is fetched in sequence: its address, and the sentinel once all 256 are (R43). -/
def cursorBefore (target : Word) (k : Nat) : Word := if k = 256 then 0 else windowWord target k

theorem windowWord_zero (target : Word) : windowWord target 0 = target := BitVec.add_zero target

theorem cursorBefore_zero (target : Word) : cursorBefore target 0 = target := windowWord_zero target

theorem windowWord_succ (target : Word) (k : Nat) : windowWord target k + 4 = windowWord target (k + 1) := by
  unfold windowWord
  rw [Nat.mul_succ, BitVec.add_assoc]
  exact congrArg (target + ·) (BitVec.ofNat_add (4 * k) 4).symm

/-- The fast path moves the cursor from one word of the window to the next, and to the sentinel from the last. -/
theorem advance_windowWord {c : InstructionCache} {target : Word} (htop : c.top.toNat = target.toNat + 1024) {k : Nat}
    (hk : k < 256) : c.advance (windowWord target k) = cursorBefore target (k + 1) := by
  have htop_lt := c.top.isLt
  have hword : (windowWord target k).toNat = target.toNat + 4 * k := toNat_windowWord (by omega) hk
  unfold cursorBefore
  split
  · exact InstructionCache.advance_of_last (by omega)
  · rw [← windowWord_succ]
    exact InstructionCache.advance_of_lt (by omega)

section Sequence

variable {c : InstructionCache} {target : Word} (hbottom : c.bottom = target)
  (htop : c.top.toNat = target.toNat + 1024) (halign : target.toNat % 4 = 0) (hne : target ≠ 0)

include hbottom htop halign hne

/-- Each word of the window hits on the cursor, which moves to the word after it (R43). -/
theorem cacheFetch_windowWord {k : Nat} (hk : k < 256) :
    cacheFetch (c.setIndex (cursorBefore target k)) (windowWord target k) =
      .ok (c.wordAt (windowWord target k), c.setIndex (cursorBefore target (k + 1))) := by
  have htop_lt := c.top.isLt
  have hword : (windowWord target k).toNat = target.toNat + 4 * k := toNat_windowWord (by omega) hk
  rw [ne_zero_iff_toNat] at hne
  have hne' : windowWord target k ≠ 0 := by
    rw [ne_zero_iff_toNat]
    omega
  have hwin : (c.setIndex (cursorBefore target k)).inWindow (windowWord target k) = true := by
    rw [InstructionCache.inWindow_setIndex, InstructionCache.inWindow_iff (by rw [hbottom, htop]), hbottom]
    omega
  rw [cacheFetch_of_eq_index (by omega) hne' hwin (if_neg (by omega)).symm]
  rw [InstructionCache.wordAt_setIndex, InstructionCache.setIndex_setIndex, InstructionCache.advance_setIndex,
    advance_windowWord htop hk]

/-- The run of fetches from word `k` on: the words in their order, and the cursor before the word that follows. -/
theorem fetchRun_window (n k : Nat) (hk : k + n ≤ 256) :
    fetchRun (c.setIndex (cursorBefore target k)) (windowWord target k) n =
      .ok ((List.range' k n).map fun j => c.wordAt (windowWord target j),
        c.setIndex (cursorBefore target (k + n))) := by
  induction n generalizing k with
  | zero => rfl
  | succ n ih =>
    rw [fetchRun, cacheFetch_windowWord hbottom htop halign hne (by omega), windowWord_succ]
    simp only [ih (k + 1) (by omega), List.range'_succ, List.map_cons, Nat.add_right_comm k 1 n, Nat.add_assoc]

end Sequence

/-- The window of a successful `load` holds the device's own words (R40, R42). -/
theorem read_windowWord {free : Nat} {target : Word} {d : MemoryDevice} (ht : target.toNat + 1024 < 2 ^ 32)
    (hfits : d.HoldsWindow target) {k : Nat} (hk : k < 256) :
    d.read (windowWord target k) = .ok ((loadCache free target d).cache.wordAt (windowWord target k)) := by
  obtain ⟨-, hbytes⟩ := loadCache_of_holdsWindow free ht hfits
  obtain ⟨hbottom, -⟩ := loadCache_cache free target d
  have haddr : (windowWord target k).toNat = target.toNat + 4 * k := toNat_windowWord ht hk
  have hoffset : (loadCache free target d).cache.offset (windowWord target k) = 4 * k := by
    rw [InstructionCache.offset, hbottom, haddr, Nat.add_sub_cancel_left]
  have hin : d.inBounds (windowWord target k) = true := (d.holdsWindow_iff ht).mp hfits k hk
  rw [MemoryDevice.read_of_inBounds hin, haddr]
  rw [InstructionCache.wordAt, hoffset, Memory.readWord, Memory.readWord, hbytes _ (by omega), hbytes _ (by omega),
    hbytes _ (by omega), hbytes _ (by omega)]
  rfl

/-! ### The obligations -/

/-- Settles O22: the place of a fetchable `pc` lies inside the buffer, and a stored word reads back. -/
theorem placedWordIsTheNextInstruction : Obligations.PlacedWordIsTheNextInstruction := by
  unfold Obligations.PlacedWordIsTheNextInstruction
  intro s w hrun ⟨hplaced, hidx, hdevice⟩ hfetch
  have ⟨_, _, hin⟩ := hfetch
  rw [State.withFetchWord_32, State.placeWord_of_fetchable hplaced hfetch]
  have hword : (s.cache.storeWord s.pc w).wordAt s.pc = w := InstructionCache.wordAt_storeWord hplaced w
  have hstored : (s.cache.storeWord s.pc w).Placed :=
    InstructionCache.storeWord_placed hplaced w (InstructionCache.offset_of_inside hplaced hin)
  exact ⟨⟨hrun, ⟨hstored, hidx, hdevice⟩, hfetch, congrArg decode hword⟩, hword, _, rfl, rfl, rfl, rfl,
    fun k hk => Memory.readByte_writeWord_other s.cache.window _ w hk⟩

/-- Settles O37: the checks before the cursor's do not look at it, and after them both paths answer alike. -/
theorem fastAndSlowPathAgree : Obligations.FastAndSlowPathAgree := by
  unfold Obligations.FastAndSlowPathAgree
  intro c a b location _ hlt
  by_cases halign : location.toNat % 4 = 0
  case neg => rw [cacheFetch_of_misaligned halign, cacheFetch_of_misaligned halign]
  by_cases hnull : location = 0
  case pos => rw [hnull, cacheFetch_zero, cacheFetch_zero]
  cases hwin : c.inWindow location with
  | false =>
    have hmiss (x : Word) : cacheFetch (c.setIndex x) location = .error (.cacheMiss location) :=
      cacheFetch_of_not_inWindow halign hnull hwin
    rw [hmiss a, hmiss b]
  | true =>
    have hhit (x : Word) : cacheFetch (c.setIndex x) location = .ok (c.wordAt location, c.setIndex (location + 4)) :=
      cacheFetch_of_lt_top (c := c.setIndex x) halign hnull hwin hlt
    rw [hhit a, hhit b]

/-- Settles O40: each fetch hits on the cursor that the one before it left, and a word of the window is the device's. -/
theorem sequentialFetchesMatchMemoryReads : Obligations.SequentialFetchesMatchMemoryReads := by
  unfold Obligations.SequentialFetchesMatchMemoryReads
  intro free target d hfits ht halign hne n hn
  obtain ⟨hbottom, htop, hindex, -⟩ := loadCache_cache free target d
  have htop' : (loadCache free target d).cache.top.toNat = target.toNat + 1024 := by rw [htop, toNat_windowTop ht]
  have hwords := fetchRun_window hbottom htop' halign hne n 0 (by omega)
  rw [cursorBefore_zero, windowWord_zero, InstructionCache.setIndex_of_eq hindex, Nat.zero_add] at hwords
  refine ⟨_, _, hwords, by rw [List.length_map, List.length_range'], fun k hk => ?_, rfl⟩
  rw [List.length_map, List.length_range'] at hk
  rw [List.getElem_map, List.getElem_range', Nat.zero_add, Nat.one_mul]
  exact read_windowWord ht hfits (by omega)

end Sys2Proof.Machine

/-! ## Proofs: where execution goes next (spec 40_cycle R83; 41_jump_and_link R92; 70_reset_and_hazards R136, R137) -/

namespace Sys2Proof.Machine

/-! ### The state after a step, and the step after it (R84) -/

section Next

variable {s t : State}

/-- The step of an instruction is `exec` of it, then the 4 that `falling` adds. -/
theorem step_of_executing {i : Instr} (h : s.Executes i) :
    ∃ u, exec i s.fetched = .next u ∧ step s = .next (falling u) ∧ (falling u).pc = u.pc + 4 ∧
      ∀ r, (falling u).reg r = u.reg r := by
  obtain ⟨hrun, hinv, hfetch, rfl⟩ := h
  obtain ⟨u, hexec, hu, -, -, hstep⟩ := phases_of_fetchable hrun hinv hfetch
  exact ⟨u, hexec, hstep, falling_pc hu, falling_reg u⟩

/-- The step of a `JAL`: the link, and the target of R90. -/
theorem step_of_jal {rd : RegIdx} {imm19 : BitVec 19} {dir : Direction} (h : s.Executes (.jal rd imm19 dir)) :
    ∃ t, step s = .next t ∧ t.reg rd = s.pc + 4 ∧ t.pc = jumpValue s.pc imm19 dir + 4 := by
  obtain ⟨u, hexec, hstep, hpc, hreg⟩ := step_of_executing h
  obtain ⟨hlink, -, hupc⟩ := jal_writes hexec
  refine ⟨falling u, hstep, ?_, ?_⟩
  · rw [hreg, hlink]; rfl
  · rw [hpc, hupc]; rfl

/-- Every instruction but `JAL` goes on to `pc + 4` (R84). -/
theorem step_of_not_jal (hrun : s.Running) (hinv : s.Inv) (hfetch : s.Fetchable)
    (hne : ∀ rd imm19 dir, decode (s.cache.wordAt s.pc) ≠ .jal rd imm19 dir) :
    ∃ t, step s = .next t ∧ t.pc = s.pc + 4 := by
  obtain ⟨u, hexec, hstep, hpc, -⟩ := step_of_executing ⟨hrun, hinv, hfetch, rfl⟩
  refine ⟨falling u, hstep, ?_⟩
  rw [hpc, exec_pc_of_not_jal hne hexec]
  rfl

/-- A step leaves the bounds of the window where they are. -/
theorem step_bounds (hstep : step s = .next t) : t.cache.bottom = s.cache.bottom ∧ t.cache.top = s.cache.top := by
  obtain ⟨-, hcache, -, -⟩ := step_frame hstep
  rw [hcache]
  exact ⟨rfl, rfl⟩

/-- The step after one that ends at an address no fetch serves (R136, R137). -/
theorem step_after_of_not_fetchable (hstep : step s = .next t) (hnot : ¬ t.Fetchable) :
    step t = .fault (fetchFault t.pc) := by
  obtain ⟨hrun, -⟩ := step_frame hstep
  exact step_of_not_fetchable hrun hnot

/-- A step that ends at an aligned non-zero address outside the window is followed by a miss there (R137). -/
theorem step_after_leaving_window (hstep : step s = .next t) (halign : t.pc.toNat % 4 = 0) (hne : t.pc ≠ 0)
    (hout : ¬ (s.cache.bottom.toNat ≤ t.pc.toNat ∧ t.pc.toNat + 4 ≤ s.cache.top.toNat)) :
    step t = .fault (.cacheMiss t.pc) := by
  obtain ⟨hbottom, htop⟩ := step_bounds hstep
  rw [← fetchFault_of_aligned halign hne]
  refine step_after_of_not_fetchable hstep fun ⟨_, _, hin⟩ => hout ?_
  rwa [hbottom, htop] at hin

/-- A step that comes back to its own `pc` finds the same instruction there. -/
theorem executes_again {i : Instr} (h : s.Executes i) (hstep : step s = .next t) (hpc : t.pc = s.pc) :
    t.Executes i := by
  obtain ⟨-, hinv, hfetch, hdec⟩ := h
  obtain ⟨hrun, hcache, -, -⟩ := step_frame hstep
  refine ⟨hrun, step_inv hinv hstep, ?_, ?_⟩
  · rw [State.Fetchable, hcache, hpc]; exact hfetch
  · rw [hcache, hpc]; exact hdec

end Next

/-! ### The tightest loop (R137) -/

/-- `JAL xD, -4` goes back 4 and `falling` adds 4 again. -/
theorem step_of_selfLoop {s : State} {rd : RegIdx} (h : s.Executes (.jal rd 4 .backward)) :
    ∃ t, step s = .next t ∧ t.pc = s.pc ∧ t.Executes (.jal rd 4 .backward) := by
  obtain ⟨t, hstep, -, hpc⟩ := step_of_jal h
  have hback : t.pc = s.pc := hpc.trans (BitVec.sub_add_cancel s.pc 4)
  exact ⟨t, hstep, hback, executes_again h hstep hback⟩

theorem safeFor_of_selfLoop (n : Nat) {s : State} {rd : RegIdx} (h : s.Executes (.jal rd 4 .backward)) :
    SafeFor n s := by
  induction n generalizing s with
  | zero =>
    obtain ⟨hrun, -⟩ := h
    exact hrun
  | succ n ih =>
    obtain ⟨t, hstep, -, hagain⟩ := step_of_selfLoop h
    obtain ⟨hrun, -⟩ := h
    exact ⟨hrun, t, hstep, ih hagain⟩

/-! ### The recipe for an offset (R92) -/

section Offset

variable {pc T : Word} {d : Int} (hd : d = (T.toNat : Int) - pc.toNat - 4)

include hd

theorem jumpValue_forward_of_offset (hlo : 0 ≤ d) (hhi : d ≤ 524287) :
    jumpValue pc (BitVec.ofNat 19 d.toNat) .forward + 4 = T := by
  have himm : (BitVec.ofNat 19 d.toNat).toNat = d.toNat :=
    (BitVec.toNat_ofNat _ _).trans (Nat.mod_eq_of_lt (by omega))
  have hT := T.isLt
  refine BitVec.eq_of_toNat_eq ?_
  rw [toNat_add_four, jumpValue_forward_toNat, himm]
  omega

theorem jumpValue_backward_of_offset (hlo : -524287 ≤ d) (hhi : d < 0) :
    jumpValue pc (BitVec.ofNat 19 (-d).toNat) .backward + 4 = T := by
  have himm : (BitVec.ofNat 19 (-d).toNat).toNat = (-d).toNat :=
    (BitVec.toNat_ofNat _ _).trans (Nat.mod_eq_of_lt (by omega))
  have hback := jumpValue_backward_add_toNat pc (BitVec.ofNat 19 (-d).toNat)
  rw [himm] at hback
  have hT := T.isLt
  refine BitVec.eq_of_toNat_eq ?_
  rw [toNat_add_four]
  omega

end Offset

/-! ### A `rising` of an `ADDI` (R83, R95) -/

/-- A `rising` whose fetch delivers an `ADDI`, on a cycle boundary or not. -/
theorem rising_of_addi {s : State} {w : Word} {c : InstructionCache} {rs1 rd : RegIdx} {imm12 : BitVec 12}
    (hrun : s.Running) (hfetch : cacheFetch s.cache s.pc = .ok (w, c)) (hdec : decode w = .addi rs1 imm12 rd) :
    ∃ t, rising s = .ok t ∧ t.Running ∧ t.reg rs1 = s.reg rs1 + immI imm12 ∧ t.pc = s.pc ∧ t.cache = c := by
  obtain ⟨t, hexec, hsum, -, hpc, hcache, -, hfault, -⟩ := exec_addi rs1 imm12 rd (s.setCache c)
  exact ⟨t, rising_exec hrun hfetch (hdec ▸ hexec), hfault.trans hrun, hsum, hpc, hcache⟩

/-! ### The obligations -/

/-- Settles O28: below the last word the second fetch takes the slow path to the same word; at the last word the cursor
is the sentinel, and the second fetch misses. -/
theorem repeatedPhases : Obligations.RepeatedPhases := by
  unfold Obligations.RepeatedPhases
  refine ⟨fun s rs1 imm12 rd haddi hlt => ?twice, fun s rs1 imm12 rd haddi hlast => ?last, fun s hrun => ?falling⟩
  case twice =>
    obtain ⟨hrun, hinv, hfetch, hdec⟩ := haddi
    have ⟨⟨hsize, _⟩, _⟩ := hinv
    have ⟨halign, hne, hin⟩ := hfetch
    have hwin : s.cache.inWindow s.pc = true := (InstructionCache.inWindow_iff hsize s.pc).mpr hin
    obtain ⟨t, hrising, ht, hsum, hpc, hcache⟩ := rising_of_addi hrun (cacheFetch_of_fetchable hinv hfetch) hdec
    have hsecond : cacheFetch t.cache t.pc = .ok (s.cache.wordAt s.pc, s.cache.setIndex (s.pc + 4)) := by
      rw [hcache, hpc]
      exact cacheFetch_of_lt_top (c := s.fetched.cache) halign hne hwin (Nat.lt_sub_of_add_lt hlt)
    obtain ⟨u, hrising', hu, hsum', hpc', hcache'⟩ := rising_of_addi ht hsecond hdec
    refine ⟨t, u, hrising, hrising', hu, ?_, hpc'.trans hpc, ?_⟩
    · rw [hsum', hsum]; rfl
    · rw [hcache', InstructionCache.setIndex_index]
  case last =>
    obtain ⟨hrun, hinv, hfetch, hdec⟩ := haddi
    obtain ⟨t, hrising, ht, -, hpc, hcache⟩ := rising_of_addi hrun (cacheFetch_of_fetchable hinv hfetch) hdec
    have hindex : t.cache.index = 0 := by
      rw [hcache]
      exact InstructionCache.advance_of_last hlast
    obtain ⟨halign, hne, -⟩ := hfetch
    refine ⟨t, hrising, ht, hindex, ?_⟩
    rw [← hpc] at halign hne ⊢
    refine rising_raise ht (cacheFetch_of_last_le halign hne (by rwa [hindex]) ?_)
    rw [hcache, hpc]
    exact Nat.sub_le_of_le_add hlast.ge
  case falling =>
    have hrun' : (falling s).Running := (falling_fault s).trans hrun
    have hpc : (falling (falling s)).pc = s.pc + 8 := by
      rw [falling_pc hrun', falling_pc hrun, BitVec.add_assoc]
      rfl
    refine ⟨hpc, ?_, by rw [falling_regs, falling_regs]⟩
    rw [falling_cache hrun', InstructionCache.setIndex_index, ← falling_pc hrun', hpc]

/-- Settles O30: the offset is exact over the integers, so the sum modulo `2^32` is the destination. -/
theorem jumpEncodingReachesTheDestination : Obligations.JumpEncodingReachesTheDestination := by
  unfold Obligations.JumpEncodingReachesTheDestination
  refine fun s rd T d hd => ⟨fun hlo hhi hjal => ?forward, fun hlo hhi hjal => ?backward, fun halign => by omega⟩
  case forward =>
    obtain ⟨t, hstep, hlink, hpc⟩ := step_of_jal hjal
    exact ⟨t, hstep, hpc.trans (jumpValue_forward_of_offset hd hlo hhi), hlink⟩
  case backward =>
    obtain ⟨t, hstep, hlink, hpc⟩ := step_of_jal hjal
    exact ⟨t, hstep, hpc.trans (jumpValue_backward_of_offset hd hlo hhi), hlink⟩

/-- Settles O31: from an aligned `pc` the offset alone decides alignment, and only the next fetch judges it. -/
theorem misalignedJumpFaultsOneCycleLater : Obligations.MisalignedJumpFaultsOneCycleLater := by
  unfold Obligations.MisalignedJumpFaultsOneCycleLater
  intro s rd imm19 dir hjal himm
  obtain ⟨t, hstep, hlink, hpc⟩ := step_of_jal hjal
  obtain ⟨-, -, ⟨halign, -⟩, -⟩ := hjal
  have hmis : t.pc.toNat % 4 ≠ 0 := by
    rw [hpc, toNat_add_four_mod_four]
    exact mt (jumpValue_aligned_iff halign imm19 dir).mp himm
  refine ⟨t, hstep, hlink, hpc, ?_⟩
  rw [← fetchFault_of_misaligned hmis]
  exact step_after_of_not_fetchable hstep fun ⟨haligned, _⟩ => hmis haligned

/-- Settles O32: a step needs a fetchable `pc`, one that leaves the window is followed by a miss, and the loop of one
instruction keeps executing it. -/
theorem executionIsConfinedToTheWindow : Obligations.ExecutionIsConfinedToTheWindow := by
  unfold Obligations.ExecutionIsConfinedToTheWindow
  refine ⟨fun s t hinv hstep => ?inside, fun s hrun hinv hfetch hlast hne => ?runOff,
    fun s rd imm19 dir hjal => ?jumpOut,
    fun s rd hloop => ⟨step_of_selfLoop hloop, fun n => safeFor_of_selfLoop n hloop⟩⟩
  case inside =>
    obtain ⟨-, -, -, hbottom, htop⟩ := (step_next_iff hinv).mp ⟨t, hstep⟩
    obtain ⟨⟨hsize, -⟩, -⟩ := hinv
    exact ⟨hbottom, hsize ▸ htop⟩
  case runOff =>
    obtain ⟨t, hstep, hpc⟩ := step_of_not_jal hrun hinv hfetch hne
    obtain ⟨halign, -⟩ := hfetch
    have htop : t.pc = s.cache.top := by
      have hlt := s.cache.top.isLt
      refine BitVec.eq_of_toNat_eq ?_
      rw [hpc, toNat_add_four]
      omega
    refine ⟨t, hstep, htop, ?_⟩
    rw [← htop]
    refine step_after_leaving_window hstep ?_ ?_ ?_
    · rw [hpc, toNat_add_four_mod_four, halign]
    · rw [ne_zero_iff_toNat, htop]
      omega
    · rw [htop]
      omega
  case jumpOut =>
    obtain ⟨t, hstep, -⟩ := step_of_jal hjal
    exact ⟨t, hstep, step_after_leaving_window hstep⟩

end Sys2Proof.Machine

/-! ## Proofs: the host's operations and the device (spec 20_memory R23, R49, R55; 60_exceptions R115; 70_reset_and_hazards
R131, R133) -/

namespace Sys2Proof.Machine

/-! ### The phases do not look at the device (R55, R101) -/

section SetDevice

variable {s t : State} (d : MemoryDevice)

theorem State.setDevice_self (s : State) : s.setDevice s.device = s := rfl

theorem exec_setDevice {i : Instr} (h : exec i s = .next t) : exec i (s.setDevice d) = .next (t.setDevice d) := by
  cases i <;> cases h <;> rfl

/-- `rising` commutes with a change of the device. -/
theorem rising_setDevice (h : rising s = .ok t) : rising (s.setDevice d) = .ok (t.setDevice d) := by
  obtain ⟨f, hfault, e⟩ | ⟨hrun, f, hfetch, e⟩ | ⟨hrun, w, c, u, hfetch, hexec, e⟩ := rising_cases s <;>
    rw [e] at h <;> cases h
  · exact rising_halted (s := s.setDevice d) hfault
  · exact rising_raise (s := s.setDevice d) hrun hfetch
  · exact rising_exec (s := s.setDevice d) hrun hfetch (exec_setDevice d hexec)

/-- `falling` commutes with a change of the device. -/
theorem falling_setDevice (s : State) : falling (s.setDevice d) = (falling s).setDevice d := by
  cases h : s.fault with
  | some f => rw [falling_halted h, falling_halted (s := s.setDevice d) h]
  | none => rw [falling_running h, falling_running (s := s.setDevice d) h]; rfl

/-- A step reports the same cycle, but for the device. -/
theorem step_setDevice (s : State) (d : MemoryDevice) :
    ∃ u, step s = report (.ok u) ∧ step (s.setDevice d) = report (.ok (u.setDevice d)) := by
  obtain ⟨r, hrising⟩ := rising_total s
  refine ⟨falling r, step_of_cycle (cycle_of_rising hrising), ?_⟩
  rw [step_of_cycle (cycle_of_rising (rising_setDevice d hrising)), falling_setDevice]

end SetDevice

theorem report_next_iff {s t : State} : report (.ok s) = .next t ↔ s = t ∧ s.Running := by
  cases h : s.fault with
  | none => simp [report_running h, State.Running, h]
  | some f => simp [report_halted h, State.Running, h]

theorem report_fault_iff {s : State} {f : Fault} : report (.ok s) = .fault f ↔ s.fault = some f := by
  cases h : s.fault with
  | none => simp [report_running h]
  | some g => simp [report_halted h]

/-! ### What the phases leave of the cache and the device (R81, R82) -/

/-- `rising` moves the cursor at most, and leaves the device. -/
theorem rising_frame {s t : State} (h : rising s = .ok t) :
    (∃ x, t.cache = s.cache.setIndex x) ∧ t.device = s.device := by
  obtain ⟨f, hfault, e⟩ | ⟨hrun, f, hfetch, e⟩ | ⟨hrun, w, c, u, hfetch, hexec, e⟩ := rising_cases s <;>
    rw [e] at h <;> cases h
  · exact ⟨⟨s.cache.index, rfl⟩, rfl⟩
  · exact ⟨⟨s.cache.index, rfl⟩, rfl⟩
  · obtain ⟨-, -, -, -, hcursor⟩ := cacheFetch_ok hfetch
    obtain ⟨hcache, hdevice, -⟩ := exec_frame hexec
    exact ⟨hcache ▸ hcursor, hdevice⟩

/-- `falling` moves the cursor at most. -/
theorem falling_cursor (s : State) : ∃ x, (falling s).cache = s.cache.setIndex x := by
  cases h : s.fault with
  | some f => exact ⟨s.cache.index, by rw [falling_halted h]; rfl⟩
  | none => exact ⟨_, falling_cache h⟩

/-! ### The host's operations, one equation each (R133) -/

theorem hostApply_rising {s t : State} (h : rising s = .ok t) : hostApply .rising s = .ok (t, hartReply t) := by
  simp only [hostApply, h]

theorem hostApply_falling (s : State) : hostApply .falling s = .ok (falling s, hartReply (falling s)) := rfl

theorem hostApply_construct {s : State} {pcReset spReset : Word} {spIndex : Nat}
    (h : configViolation s.device.baseAddress s.device.length pcReset spIndex = none) :
    hostApply (.construct pcReset spReset spIndex) s =
      .ok (State.construct s.freeCount pcReset spReset spIndex s.device,
        hartReply (State.construct s.freeCount pcReset spReset spIndex s.device)) := by
  simp only [hostApply, h]

theorem hostApply_construct_refused {s : State} {pcReset spReset : Word} {spIndex : Nat} {v : ConfigViolation}
    (h : configViolation s.device.baseAddress s.device.length pcReset spIndex = some v) :
    hostApply (.construct pcReset spReset spIndex) s = .error (.refusedConfiguration v) := by
  simp only [hostApply, h]

theorem hartReply_running {s : State} (h : s.Running) : hartReply s = .done := by
  simp only [hartReply, h]

/-- Everything an operation that is no construction can do to the state: a phase, a write of the device, or nothing. -/
theorem hostApply_cases {op : HostOp} {s t : State} {reply : HostReply} (hop : op.isConstruct = false)
    (h : hostApply op s = .ok (t, reply)) :
    (op = .rising ∧ rising s = .ok t) ∨ (op = .falling ∧ t = falling s) ∨
    (op.isWrite = true ∧ ∃ a v d, s.device.write a v = .ok d ∧ t = s.setDevice d) ∨
    ((op = .observe ∨ (∃ a, op = .read a) ∨ op.isWrite = true) ∧ t = s) := by
  cases op with
  | rising =>
    obtain ⟨u, hrising⟩ := rising_total s
    rw [hostApply_rising hrising] at h
    cases h
    exact .inl ⟨rfl, hrising⟩
  | falling =>
    rw [hostApply_falling] at h
    cases h
    exact .inr (.inl ⟨rfl, rfl⟩)
  | observe =>
    rw [hostApply_observe] at h
    cases h
    exact .inr (.inr (.inr ⟨.inl rfl, rfl⟩))
  | read a =>
    obtain ⟨reply', hread⟩ := hostApply_read s a
    rw [hread] at h
    cases h
    exact .inr (.inr (.inr ⟨.inr (.inl ⟨a, rfl⟩), rfl⟩))
  | write a v =>
    cases hwrite : s.device.write a v with
    | ok d =>
      rw [hostApply_write_ok hwrite] at h
      cases h
      exact .inr (.inr (.inl ⟨rfl, a, v, d, hwrite, rfl⟩))
    | error e =>
      rw [hostApply_write_error hwrite] at h
      cases h
      exact .inr (.inr (.inr ⟨.inr (.inr rfl), rfl⟩))
  | construct pcReset spReset spIndex => cases hop

/-- A run of one operation and then the rest. -/
theorem hostRun_cons {op : HostOp} {ops : List HostOp} {s t : State} (h : hostRun (op :: ops) s = .ok t) :
    ∃ u reply, hostApply op s = .ok (u, reply) ∧ hostRun ops u = .ok t := by
  unfold hostRun at h
  split at h
  · next u reply happly => exact ⟨u, reply, happly, h⟩
  · cases h

theorem hostRun_cons_of_apply {op : HostOp} {s u : State} {reply : HostReply} (h : hostApply op s = .ok (u, reply))
    (ops : List HostOp) : hostRun (op :: ops) s = hostRun ops u := by
  simp only [hostRun, h]

/-! ### What no operation but a construction changes (R20, R23, R49) -/

/-- The parts of the state that stand from one construction to the next are the same. -/
structure SamePlacement (s t : State) : Prop where
  window : t.cache.window = s.cache.window
  bottom : t.cache.bottom = s.cache.bottom
  top : t.cache.top = s.cache.top
  base : t.device.baseAddress = s.device.baseAddress
  length : t.device.length = s.device.length

theorem SamePlacement.trans {s t u : State} (h : SamePlacement s t) (h' : SamePlacement t u) : SamePlacement s u :=
  ⟨h'.window.trans h.window, h'.bottom.trans h.bottom, h'.top.trans h.top, h'.base.trans h.base,
    h'.length.trans h.length⟩

/-- Moving the cursor and leaving the device keeps the placement. -/
theorem SamePlacement.of_cursor {s t : State} {x : Word} (hcache : t.cache = s.cache.setIndex x)
    (hdevice : t.device = s.device) : SamePlacement s t := by
  constructor <;> simp only [hcache, hdevice, InstructionCache.setIndex_window, InstructionCache.setIndex_bottom,
    InstructionCache.setIndex_top]

theorem hostApply_samePlacement {op : HostOp} {s t : State} {reply : HostReply} (hop : op.isConstruct = false)
    (h : hostApply op s = .ok (t, reply)) : SamePlacement s t := by
  obtain ⟨-, hrising⟩ | ⟨-, rfl⟩ | ⟨-, a, v, d, hwrite, rfl⟩ | ⟨-, rfl⟩ := hostApply_cases hop h
  · obtain ⟨⟨x, hcache⟩, hdevice⟩ := rising_frame hrising
    exact .of_cursor hcache hdevice
  · obtain ⟨x, hcache⟩ := falling_cursor s
    exact .of_cursor hcache (falling_device s)
  · obtain ⟨-, rfl⟩ := MemoryDevice.write_cases hwrite
    exact ⟨rfl, rfl, rfl, rfl, rfl⟩
  · exact ⟨rfl, rfl, rfl, rfl, rfl⟩

theorem hostRun_samePlacement {ops : List HostOp} {s t : State} (hops : ∀ op ∈ ops, op.isConstruct = false)
    (h : hostRun ops s = .ok t) : SamePlacement s t := by
  induction ops generalizing s with
  | nil =>
    cases h
    exact ⟨rfl, rfl, rfl, rfl, rfl⟩
  | cons op ops ih =>
    obtain ⟨hop, hrest⟩ := List.forall_mem_cons.mp hops
    obtain ⟨u, reply, happly, hrun⟩ := hostRun_cons h
    exact (hostApply_samePlacement hop happly).trans (ih hrest hrun)

/-! ### Runs with the writes left out (R49, D18) -/

/-- An operation that neither constructs nor writes does the same to a state with another device. -/
theorem hostApply_setDevice {op : HostOp} {s t : State} {reply : HostReply} (hop : op.isConstruct = false)
    (hwrite : op.isWrite = false) (h : hostApply op s = .ok (t, reply)) (d : MemoryDevice) :
    ∃ reply', hostApply op (s.setDevice d) = .ok (t.setDevice d, reply') := by
  obtain ⟨rfl, hrising⟩ | ⟨rfl, rfl⟩ | ⟨hw, -⟩ | ⟨rfl | ⟨a, rfl⟩ | hw, rfl⟩ := hostApply_cases hop h
  · exact ⟨_, hostApply_rising (rising_setDevice d hrising)⟩
  · exact ⟨_, by rw [hostApply_falling, falling_setDevice]⟩
  · exact absurd (hwrite.symm.trans hw) Bool.false_ne_true
  · exact ⟨_, hostApply_observe _⟩
  · exact hostApply_read _ a
  · exact absurd (hwrite.symm.trans hw) Bool.false_ne_true

/-- A write changes the device only. -/
theorem setDevice_of_hostApply_write {op : HostOp} {s t : State} {reply : HostReply} (hop : op.isConstruct = false)
    (hwrite : op.isWrite = true) (h : hostApply op s = .ok (t, reply)) (d : MemoryDevice) :
    t.setDevice d = s.setDevice d := by
  obtain ⟨rfl, -⟩ | ⟨rfl, -⟩ | ⟨-, a, v, e, -, rfl⟩ | ⟨-, rfl⟩ := hostApply_cases hop h
  · cases hwrite
  · cases hwrite
  · rfl
  · rfl

/-- The run without its writes, from the same state but for the device, which then stays as it was. -/
theorem hostRun_without_writes {ops : List HostOp} {s t : State} (hops : ∀ op ∈ ops, op.isConstruct = false)
    (h : hostRun ops s = .ok t) (d : MemoryDevice) :
    hostRun (ops.filter fun op => !op.isWrite) (s.setDevice d) = .ok (t.setDevice d) := by
  induction ops generalizing s with
  | nil =>
    cases h
    rfl
  | cons op ops ih =>
    obtain ⟨hop, hrest⟩ := List.forall_mem_cons.mp hops
    obtain ⟨u, reply, happly, hrun⟩ := hostRun_cons h
    cases hwrite : op.isWrite with
    | true =>
      rw [List.filter_cons_of_neg (by simp [hwrite]), ← setDevice_of_hostApply_write hop hwrite happly]
      exact ih hrest hrun
    | false =>
      obtain ⟨reply', happly'⟩ := hostApply_setDevice hop hwrite happly d
      rw [List.filter_cons_of_pos (by simp [hwrite]), hostRun_cons_of_apply happly']
      exact ih hrest hrun

/-! ### A construction that succeeds (R40) -/

/-- A construction whose window fits latches nothing (R40). -/
theorem State.construct_running (free : Nat) {pcReset : Word} (spReset : Word) (spIndex : Nat) {d : MemoryDevice}
    (ht : pcReset.toNat + 1024 < 2 ^ 32) (hfits : d.HoldsWindow pcReset) :
    (State.construct free pcReset spReset spIndex d).fault = none := by
  obtain ⟨hfailed, -⟩ := loadCache_of_holdsWindow free ht hfits
  simp [hfailed]

/-! ### The obligations -/

/-- Settles O58: each operation keeps the placement, and so does every sequence of them. -/
theorem theWindowIsFrozenUntilTheNextConstruction : Obligations.TheWindowIsFrozenUntilTheNextConstruction := by
  unfold Obligations.TheWindowIsFrozenUntilTheNextConstruction
  intro ops s t hops hrun
  obtain ⟨hwindow, hbottom, htop, hbase, hlength⟩ := hostRun_samePlacement hops hrun
  exact ⟨hwindow, hbottom, htop, hbase, hlength⟩

/-- Settles O59: the run without writes, started from the same state, differs from the whole run in the device only. -/
theorem hostWritesAreInvisibleToTheHart : Obligations.HostWritesAreInvisibleToTheHart := by
  unfold Obligations.HostWritesAreInvisibleToTheHart
  intro ops s t hops hrun
  have hwithout := hostRun_without_writes hops hrun s.device
  rw [State.setDevice_self] at hwithout
  exact ⟨t.setDevice s.device, hwithout, rfl, rfl⟩

/-- Settles O47: the frame of each phase holds the device, and each phase commutes with a change of it. -/
theorem theHartNeverTouchesTheDevice : Obligations.TheHartNeverTouchesTheDevice := by
  unfold Obligations.TheHartNeverTouchesTheDevice
  refine ⟨fun s t hrising => ?rising, falling_device, fun s t hstep => ?step, fun s t d hstep => ?next,
    fun s f d hstep => ?fault⟩
  case rising =>
    obtain ⟨-, hdevice⟩ := rising_frame hrising
    exact hdevice
  case step =>
    obtain ⟨-, -, hdevice, -⟩ := step_frame hstep
    exact ⟨hdevice, fun a => congrArg (MemoryDevice.byteAt · a) hdevice⟩
  case next =>
    obtain ⟨u, hreport, hreport'⟩ := step_setDevice s d
    rw [hreport, report_next_iff] at hstep
    obtain ⟨rfl, hrun⟩ := hstep
    exact hreport'.trans (report_running (t := u.setDevice d) hrun)
  case fault =>
    obtain ⟨u, hreport, hreport'⟩ := step_setDevice s d
    rw [hreport, report_fault_iff] at hstep
    exact hreport'.trans (report_halted (t := u.setDevice d) hstep)

/-- Settles O35: each operation but a construction keeps the latch of a halted core, and a construction whose window
fits latches nothing. -/
theorem haltedCoreDoesNothing : Obligations.HaltedCoreDoesNothing := by
  unfold Obligations.HaltedCoreDoesNothing
  refine fun s f hfault => ⟨rising_halted hfault, falling_halted hfault, step_halted hfault, hostApply_observe s,
    fun op t reply hop happly => ?keeps, fun pcReset spReset spIndex hfits hcfg => ?construct⟩
  case keeps =>
    obtain ⟨-, hrising⟩ | ⟨-, rfl⟩ | ⟨-, a, v, d, -, rfl⟩ | ⟨-, rfl⟩ := hostApply_cases hop happly
    · rw [rising_halted hfault] at hrising
      cases hrising
      exact hfault
    · rw [falling_fault, hfault]
    · exact hfault
    · exact hfault
  case construct =>
    obtain ⟨-, ht, -⟩ := (configViolation_eq_none_iff _ _ _ _).mp hcfg
    have hrun := State.construct_running s.freeCount spReset spIndex ht hfits
    exact ⟨_, by rw [hostApply_construct hcfg, hartReply_running hrun], hrun⟩

/-- Settles O46: reads tell canonical memories apart, and both operations build the contents with canonical writes. -/
theorem canonicalMemoriesAreEqualData : Obligations.CanonicalMemoriesAreEqualData := by
  unfold Obligations.CanonicalMemoriesAreEqualData
  refine ⟨fun m m' => Memory.ext_of_wf, fun d d' a v hwf hwrite => ?_, MemoryDevice.create_wf⟩
  obtain ⟨-, -, hwf'⟩ := MemoryDevice.write_wf hwf hwrite
  exact hwf'

end Sys2Proof.Machine

/-! ## Proofs: construction, the configurations it refuses, and the invariant after it (spec 00_scope R6; 10_state R21,
R27; 70_reset_and_hazards R131) -/

namespace Sys2Proof.Machine

/-! ### Constructed cores (R130) -/

theorem constructCore_refused {c : Config} {v : ConfigViolation}
    (h : configViolation c.memBase c.memLength c.pcReset c.spIndex = some v) :
    constructCore c = .refused (.refusedConfiguration v) := by
  simp only [constructCore, h]

theorem constructCore_accepted {c : Config}
    (h : configViolation c.memBase c.memLength c.pcReset c.spIndex = none) :
    constructCore c = report (.ok (State.ofConfig c)) := by
  simp only [constructCore, h]

/-- A construction on a device that fits the address space meets the invariant of a cycle boundary, whether or not its
load fails (R21). -/
theorem State.construct_inv (free : Nat) {pcReset : Word} (spReset : Word) (spIndex : Nat) {d : MemoryDevice}
    (ht : pcReset.toNat + 1024 < 2 ^ 32) (hd : d.Placed) : (State.construct free pcReset spReset spIndex d).Inv := by
  obtain ⟨hbottom, htop, hindex⟩ := State.construct_window free pcReset spReset spIndex d ht
  obtain ⟨-, -, -, hbuffer⟩ := loadCache_cache free pcReset d
  exact ⟨⟨by rw [hbottom, htop], hbuffer⟩, hindex, hd⟩

theorem State.ofConfig_inv {c : Config} (h : configViolation c.memBase c.memLength c.pcReset c.spIndex = none) :
    (State.ofConfig c).Inv := by
  obtain ⟨hdevice, ht, -⟩ := (configViolation_eq_none_iff _ _ _ _).mp h
  exact State.construct_inv 0 c.spReset c.spIndex ht
    ⟨hdevice, MemoryDevice.create_wf c.memBase c.memLength c.memInit⟩

/-! ### The window of a device with nothing listed (log 2) -/

theorem Memory.readWord_nil (a : Nat) : Memory.readWord [] a = 0 := by
  simp only [Memory.readWord, Memory.readByte]
  decide

theorem Memory.writeWord_nil_zero (a : Nat) : Memory.writeWord [] a 0 = [] := rfl

/-- The copy loop lists nothing that the device does not list. -/
theorem copyWords_of_unlisted {d : MemoryDevice} {target : Word} (hd : d.bytes = []) (n k : Nat)
    (h : ∀ j, k ≤ j → j < k + n → d.inBounds (target + BitVec.ofNat 32 (4 * j)) = true) :
    copyWords d target n k [] = .ok [] := by
  induction n generalizing k with
  | zero => rfl
  | succ n ih =>
    rw [copyWords, MemoryDevice.read_of_inBounds (h k le_rfl (by omega)), hd, Memory.readWord_nil]
    simp only [Memory.writeWord_nil_zero]
    exact ih (k + 1) fun j _ _ => h j (by omega) (by omega)

theorem loadCache_of_unlisted (free : Nat) {target : Word} {d : MemoryDevice} (hd : d.bytes = [])
    (ht : target.toNat + 1024 < 2 ^ 32) (hfits : d.HoldsWindow target) :
    (loadCache free target d).cache.window = [] := by
  have hcopy := copyWords_of_unlisted hd cacheWords 0 fun j _ hj =>
    (d.holdsWindow_iff ht).mp hfits j (by simpa [cacheWords] using hj)
  unfold loadCache
  rw [hcopy]

/-! ### The default configuration (95_test_vectors, log 1) -/

theorem standard_accepted :
    configViolation Config.standard.memBase Config.standard.memLength Config.standard.pcReset
      Config.standard.spIndex = none := by decide

theorem standard_holdsWindow :
    (MemoryDevice.create Config.standard.memBase Config.standard.memLength Config.standard.memInit).HoldsWindow
      Config.standard.pcReset := by decide

theorem reset_running : State.reset.fault = none :=
  State.construct_running 0 _ _ (by decide) standard_holdsWindow

/-! ### The obligations -/

/-- Settles O50: the load does not look at the alignment or the value of `PC_RESET`, so the first fetch judges them; a
window that does not fit fails in the load. -/
theorem resetDoesNotValidateThePc : Obligations.ResetDoesNotValidateThePc := by
  unfold Obligations.ResetDoesNotValidateThePc
  intro free pcReset spReset spIndex d s
  refine ⟨fun hcfg => ?accepted, fun t hdevice hbad => ?refused⟩
  case accepted =>
    obtain ⟨-, ht, -⟩ := (configViolation_eq_none_iff _ _ _ _).mp hcfg
    refine ⟨fun hfits hnull => ?null, fun hfits hmis => ?misaligned, fun hnot => ?outside⟩
    case null =>
      have hrun : s.fault = none := State.construct_running free spReset spIndex ht hfits
      have hpc : s.pc = 0 := hnull
      exact ⟨hrun, step_raise hrun (by rw [hpc]; exact cacheFetch_zero _)⟩
    case misaligned =>
      have hrun : s.fault = none := State.construct_running free spReset spIndex ht hfits
      obtain ⟨-, hbytes⟩ := loadCache_of_holdsWindow free ht hfits
      exact ⟨hrun, step_raise hrun (cacheFetch_of_misaligned hmis), hbytes⟩
    case outside =>
      obtain ⟨k, -, hfailed, -⟩ := loadCache_of_not_holdsWindow free ht hnot
      exact ⟨_, by rw [State.construct_fault, hfailed]; rfl⟩
  case refused =>
    subst hdevice
    cases hcfg : configViolation t.device.baseAddress t.device.length pcReset spIndex with
    | some v => exact ⟨v, hostApply_construct_refused hcfg⟩
    | none =>
      obtain ⟨hfits, ht, -⟩ := (configViolation_eq_none_iff _ _ _ _).mp hcfg
      omega

/-- Settles O51: construction is refused exactly where the check of the parameters finds a violation. -/
theorem refusedConfigurationsAreExactlyTheViolations : Obligations.RefusedConfigurationsAreExactlyTheViolations := by
  unfold Obligations.RefusedConfigurationsAreExactlyTheViolations
  intro c
  have haccepted := configViolation_eq_none_iff c.memBase c.memLength c.pcReset c.spIndex
  cases hcfg : configViolation c.memBase c.memLength c.pcReset c.spIndex with
  | some v =>
    refine iff_of_true ⟨v, constructCore_refused hcfg⟩ ?_
    rw [hcfg] at haccepted
    by_contra hnone
    exact absurd (haccepted.mpr (by omega)) nofun
  | none =>
    obtain ⟨hdevice, ht, hsp⟩ := haccepted.mp hcfg
    refine iff_of_false (fun ⟨v, hrefused⟩ => ?_) (by omega)
    rw [constructCore_accepted hcfg] at hrefused
    exact report_ne_refused _ _ hrefused

/-- Settles O54: the bounds of R6 place the device and the window, and the contents of both are built canonically. -/
theorem everyConstructionMeetsTheInvariant : Obligations.EveryConstructionMeetsTheInvariant := by
  unfold Obligations.EveryConstructionMeetsTheInvariant
  exact fun c => State.ofConfig_inv

/-- Settles O53: the default configuration is one that R6 accepts. -/
theorem resetMeetsTheInvariant : Obligations.ResetMeetsTheInvariant := by
  unfold Obligations.ResetMeetsTheInvariant
  exact State.ofConfig_inv standard_accepted

/-- Settles O52: the values are the default parameters, and the load of a device with nothing listed lists nothing. -/
theorem standardResetState : Obligations.StandardResetState := by
  unfold Obligations.StandardResetState
  obtain ⟨hbottom, htop, hindex, -⟩ := loadCache_cache 0 Config.standard.pcReset
    (MemoryDevice.create Config.standard.memBase Config.standard.memLength Config.standard.memInit)
  refine ⟨rfl, hbottom, htop, hindex, loadCache_of_unlisted 0 rfl (by decide) standard_holdsWindow, reset_running,
    fun r => ?registers, rfl, (constructCore_accepted standard_accepted).trans (report_running reset_running)⟩
  case registers => exact (State.construct_reg _ _ _ _ _ r).trans (ite_self _)

end Sys2Proof.Machine
